-- ==== Sys2Proof/Word.lean ====
section
/-!
DEFINITION. The word types of the DES core: unsigned bit vectors of a stated width, bit `i` of weight `2^i` (R12). Nothing in the core is signed.
-/

namespace Sys2Proof

/-- A 32-bit register of the host interface (R11, R53), and the command word `CMD32` (R81). -/
abbrev Word := BitVec 32

/-- One byte of a buffer or of a byte sequence (R17). -/
abbrev Byte := BitVec 8

/-- A 64-bit block, or a 64-bit key: `BLOCK_BITS` and `KEY_BYTES` of R10. -/
abbrev Block := BitVec 64

/-- One half of a block while the rounds run: `HALF_BITS` of R10. -/
abbrev Half := BitVec 32

/-- One half, `C` or `D`, of the key scheduler: `CD_BITS` of R10. -/
abbrev KeyHalf := BitVec 28

/-- A round subkey: `SUBKEY_BITS` of R10. -/
abbrev Subkey := BitVec 48

/-- The whole schedule `SK[0..15]` with every entry known (R19, R24): entry `i-1` is the subkey of round `i`
(`90_conflicts.md` C1). -/
abbrev Schedule := Vector Subkey 16

end Sys2Proof
end

