-- ==== Sys2Proof/Syntax.lean ====
section
/-!
DEFINITION. The commands of the core, one constructor per row of `spec/opcode_table.json` (R82).
-/

namespace Sys2Proof

/-- The five commands (R82, R88). No command carries an operand in its word: each one's operands are fixed registers
and buffers (R83), so no constructor has a field. -/
inductive Instr where
  /-- `LDKEY`: load a key and derive its schedule (R126). -/
  | ldkey
  /-- `ENC`: encrypt the payload in `IN` (R186). -/
  | enc
  /-- `DEC`: decrypt the payload in `IN` (R187). -/
  | dec
  /-- `ENCB`: encrypt the one block in `DIN` (R166). -/
  | encb
  /-- `DECB`: decrypt the one block in `DIN` (R167). -/
  | decb
deriving DecidableEq, Repr

end Sys2Proof
end

