-- ==== Sys2Proof/WellFormed.lean ====
section
/-!
DEFINITION. The fields of a command word and which words are commands (`30_encoding.md` sections 1 and 2). A command has no operand
(R83), so every term of `Instr` is well-formed; the checks of this hardware are on the word.
-/

namespace Sys2Proof

/-- R81: the command number, bits 7:0. -/
def cmdOp (w : Word) : Byte := w.extractLsb' 0 8

/-- R81: the reserved field, bits 31:8. -/
def cmdRsv (w : Word) : BitVec 24 := w.extractLsb' 8 24

/-- R84: the reserved field must be 0. -/
def rsvIsZero (w : Word) : Bool := cmdRsv w == 0

/-- R84: the command number must be one of 0x01 to 0x05. -/
def opIsCommand (w : Word) : Bool := decide (1 ≤ (cmdOp w).toNat ∧ (cmdOp w).toNat ≤ 5)

/-- A command word: one that is not illegal in the sense of R84. -/
def wordIsCommand (w : Word) : Bool := rsvIsZero w && opIsCommand w

/-- Every command is well-formed: it has no field that could be out of range (R83). -/
def Instr.wf : Instr → Bool
  | .ldkey => true
  | .enc => true
  | .dec => true
  | .encb => true
  | .decb => true

end Sys2Proof
end

