-- ==== Sys2Proof/Decode.lean ====
section
/-!
DEFINITION. The decoder of command words, total on all of them (R87), the encoder (R82), and the host's numbering of a table row. A command
word is one 32-bit value of the host interface, which carries no byte lanes (R52), and is always 32 bits long (R86).
-/

namespace Sys2Proof

/-- Why a word is illegal (R84). Both have the same effect, `IllegalCommand`. -/
inductive IllegalWord where
  /-- `RSV` is not 0. -/
  | reservedBits
  /-- `RSV` is 0 and `OP` is 0x00 or in 0x06..0xFF. -/
  | unknownOp
deriving DecidableEq, Repr

/-- What a word decodes to: R87's `Command`. -/
inductive Decoded where
  | command (i : Instr)
  | illegal (why : IllegalWord)
deriving DecidableEq, Repr

/-- R87: the decoder. -/
def decode (w : Word) : Decoded :=
  if rsvIsZero w then
    match (cmdOp w).toNat with
    | 0x01 => .command .ldkey
    | 0x02 => .command .enc
    | 0x03 => .command .dec
    | 0x04 => .command .encb
    | 0x05 => .command .decb
    | _ => .illegal .unknownOp
  else .illegal .reservedBits

/-- R82: the command number of a command. -/
def opOf : Instr → Byte
  | .ldkey => 0x01
  | .enc => 0x02
  | .dec => 0x03
  | .encb => 0x04
  | .decb => 0x05

/-- R81, R82: the word of a command, with `RSV` = 0. -/
def encode (i : Instr) : Word := 0#24 ++ opOf i

/-- The command the decoder reads from a row of the opcode table whose low `nbits` bits are those of `w` and whose other bits
are 0. -/
def decodeTableWord (nbits w : Nat) : Option Instr :=
  if w % 2 ^ nbits < 2 ^ 32 then
    match decode (BitVec.ofNat 32 (w % 2 ^ nbits)) with
    | .command i => some i
    | .illegal _ => none
  else none

end Sys2Proof
end

