-- ==== Sys2Proof/Config.lean ====
section
/-!
DEFINITION. What an implementation fixes: the input buffer's capacity `IN_CAP`, the one parameter the spec leaves OPEN (R11,
`92_eei_decisions.md` D12, `93_implementation_defined.md` I3), and the label of the hardware (R3).
-/

namespace Sys2Proof

/-- A legal `IN_CAP`: a number of bytes with `8 <= IN_CAP <= 65528` (R11). The bounds travel with the number, so no
machine with an illegal capacity can be written down. -/
structure InCap where
  val : Nat
  lo : 8 ≤ val
  hi : val ≤ 65528
deriving DecidableEq, Repr

/-- How far the machine's `IN_CAP` lies above its least legal value 8. OPEN in the spec (R11): a constant with no
body, so no proof can see its value. -/
opaque Config.inCapExcess : Fin 65521

/-- The `IN_CAP` of the machine that starts from `Machine.State.reset`: any one of the values R11 admits. -/
def Config.inCap : InCap where
  val := Config.inCapExcess.val + 8
  lo := Nat.le_add_left 8 _
  hi := by have := Config.inCapExcess.isLt; omega

/-- R3: the spec's own label of the hardware, with its revision. -/
def Config.identity : String × Nat := ("DES-ECB-PAD8/azmine-1", 1)

end Sys2Proof
end

