-- ==== Sys2Proof/Machine/State.lean ====
section
/-!
DEFINITION. The state of one core and of the host that drives it (`10_state.md`, R20 to R38; `20_memory.md`, R60, R61), as plain data, the
state after reset, and the reasons a step can stop.
-/

namespace Sys2Proof.Machine

/-- A cell that holds a value or the spec's "no value" `⊥` (R16): `none` is `⊥`. It is the spec's own state, not a missing
reset value: `⊥` is the reset value R38 gives these cells, and failing commands write it (R214). Log entry 1. -/
abbrev Held (α : Type) := Option α

/-- A byte buffer: the cells that hold a byte, each with its index, indices strictly rising. A cell that is not listed
holds `⊥` (R16, R27, R29). -/
abbrev Memory := List Host.Cell

/-- The error codes 0 to 6 of `STATUS.ERR` (R210). Codes 7 to 15 are never produced (R31, `93_implementation_defined.md` I6). -/
inductive ErrCode where
  /-- 0, `None`: the last command succeeded, or none ran since reset. -/
  | none
  /-- 1: `LDKEY` with `IN_LEN != 8` (R127). -/
  | invalidKeyLength
  /-- 2: `DEC` with `IN_LEN = 0` or not a multiple of 8 (R187). -/
  | invalidCiphertextLength
  /-- 3: `DEC` whose decrypted bytes do not end in a padding (R182). -/
  | malformedPadding
  /-- 4: `ENC`, `DEC`, `ENCB` or `DECB` before a key is loaded (R212). -/
  | noKey
  /-- 5: a command word that is not one of the five (R84). -/
  | illegalCommand
  /-- 6: `ENC` or `DEC` with `IN_LEN > IN_CAP` (R213). -/
  | capacityExceeded
deriving DecidableEq, Repr

/-- One action of a host program (R60). An access names its width in bits, its byte offset from the core's base and, for a write, a
value of that width. Every width and offset can be written down, so that the improper accesses of R57 are in the model. -/
inductive HostAction where
  /-- `wr OFF, v` (32 bits) and `wrb` (8 bits): write `v` at offset `off`. -/
  | write (width off : Nat) (v : BitVec width)
  /-- `rd OFF` (32 bits) and `rdb` (8 bits): read offset `off`. -/
  | read (width off : Nat)
  /-- `reset`: reset the core (R240). -/
  | reset
deriving DecidableEq, Repr

/-- A value a host read returned (R56): a register's 32 bits or a buffer cell's 8. -/
inductive ReadValue where
  | word (w : Word)
  | byte (b : Byte)
deriving DecidableEq, Repr

/-- The state. The first group is the core's (R22 to R31); `CMD` keeps no value (R32), `STATUS` is the view `statusWord` of `keyValid` and
`err`, and the working values of R35 do not outlive a command. The second group is the run's. -/
structure State where
  /-- `IN_CAP`, the parameter of R11. No action changes it (log entry 2). -/
  inCap : InCap
  /-- `KEY` (R22). -/
  key : Held Block
  /-- `KEY_VALID` (R23), which is also `STATUS[0]`. -/
  keyValid : Bool
  /-- `SK[0..15]` (R24): entry `i-1` holds the subkey of round `i`. -/
  sk : Vector (Held Subkey) 16
  /-- `DIN_HI` (R25). -/
  dinHi : Held Word
  /-- `DIN_LO` (R25). -/
  dinLo : Held Word
  /-- `DOUT_HI` (R26). -/
  doutHi : Held Word
  /-- `DOUT_LO` (R26). -/
  doutLo : Held Word
  /-- `IN[0..IN_CAP)` (R27). -/
  inBuf : Memory
  /-- `IN_LEN` (R28). -/
  inLen : Word
  /-- `OUT[0..OUT_CAP)` (R29). -/
  outBuf : Memory
  /-- `OUT_LEN` (R30). -/
  outLen : Word
  /-- `STATUS.ERR` (R31, R210). -/
  err : ErrCode
  /-- The host program's actions that are still to be performed, the next one first (R21, R60). -/
  program : List HostAction
  /-- The values the program's reads have returned, in order (R61). -/
  observed : List ReadValue
deriving DecidableEq, Repr

/-- The reset state of R38 and R240 for a core with the given `IN_CAP`, with no host program and nothing observed. -/
def State.resetWith (cap : InCap) : State where
  inCap := cap
  key := .none
  keyValid := false
  sk := Vector.replicate 16 .none
  dinHi := .none
  dinLo := .none
  doutHi := .none
  doutLo := .none
  inBuf := []
  inLen := 0
  outBuf := []
  outLen := 0
  err := .none
  program := []
  observed := []

/-- The machine right after reset (R38, R240), which is also its power-on state (R241). -/
def State.reset : State := State.resetWith Config.inCap

/-- What stops a run with a fault. -/
inductive Fault where
  /-- `UnwrittenRead`, the spec's own stop (R220, D24, I1 with the treatment `fault`): a command (R126, R166, R167, R186, R187) or a
  host read (R56) needs the value of a cell that holds `⊥`. "The faulting action has no effect and the run ends with the fault
  recorded." Safe: a claim about a run holds only for programs that write before they read (R220). -/
  | unwrittenRead
deriving DecidableEq, Repr

/-- Why an action has no meaning. The first constructor is for a command without a meaning (there is none); the others are
the improper host accesses of R57, which the spec itself refuses (R221). Each is safe: the model claims nothing of such a run. -/
inductive Refusal where
  /-- A command whose arm of `exec` has no meaning yet. -/
  | notModelled (mnemonic : String)
  /-- A host access to a reserved offset (R53, R57). -/
  | reservedOffset
  /-- A host access to the register offsets 0x00 to 0x1F that is not at a multiple of 4 (R54, R57). -/
  | misalignedRegister
  /-- A host access to a register that is not 32 bits wide, or to a buffer cell that is not 8 bits wide (R54, R57). -/
  | improperWidth
  /-- A host write to `STATUS`, `OUT_LEN`, `DOUT_HI`, `DOUT_LO` or `OUT[i]` (R57). -/
  | readOnlyWritten
  /-- A host read of `CMD` (R32, R57). -/
  | commandRead
deriving DecidableEq, Repr

/-- What an action, a command or a step answers. -/
abbrev Result := Host.Outcome State Fault Refusal

end Sys2Proof.Machine
end

