-- ==== Sys2Proof/Machine/Ops.lean ====
section
/-!
DEFINITION. The named operations over buffers and registers, and the one operation every failing command ends in (R214). The core has no
trap and no return from one (R218, R219): a failure writes `STATUS.ERR`, and the next command overwrites it (R215).
-/

namespace Sys2Proof.Machine

/-- The canonical form of a buffer: indices strictly rising, so that equal buffers are equal lists. -/
def Memory.wf (m : Memory) : Bool := decide (m.Pairwise fun a b => a.1 < b.1)

/-- R16: the value of cell `i`, `⊥` where nothing is listed. -/
def Memory.read : Memory → Nat → Held Byte
  | [], _ => none
  | c :: m, i => if i = c.1 then some c.2 else Memory.read m i

/-- R16: write byte `b` to cell `i`, keeping the indices rising. -/
def Memory.write : Memory → Nat → Byte → Memory
  | [], i, b => [(i, b)]
  | c :: m, i, b => if i < c.1 then (i, b) :: c :: m else if i = c.1 then (i, b) :: m else c :: Memory.write m i b

/-- R16: `InRead(i, n)`: the bytes of cells `i` to `i+n-1`; `⊥` when any of them is. -/
def Memory.readBytes (m : Memory) (i : Nat) : Nat → Held (List Byte)
  | 0 => some []
  | n + 1 =>
    match m.read i, Memory.readBytes m (i + 1) n with
    | some b, some bs => some (b :: bs)
    | _, _ => none

/-- R16: the buffer whose cells from `i` on hold the given bytes, with `⊥` in every other cell. -/
def Memory.ofBytes (i : Nat) : List Byte → Memory
  | [] => []
  | b :: bs => (i, b) :: Memory.ofBytes (i + 1) bs

/-- R215: write `STATUS.ERR`. -/
def State.setErr (s : State) (e : ErrCode) : State := { s with err := e }

/-- R126, R128: write `KEY`, all of `SK[0..15]` and `KEY_VALID <- 1` in one step. -/
def State.loadKey (s : State) (k : Block) (sk : Schedule) : State :=
  { s with key := some k, sk := ⟨(sk.toList.map some).toArray, by simp⟩, keyValid := true }

/-- R186, R187: `OutWrite(0, c)`, `⊥` in every `OUT` cell from `len(c)` on, and `OUT_LEN <- len(c)`. -/
def State.setOut (s : State) (c : List Byte) : State :=
  { s with outBuf := Memory.ofBytes 0 c, outLen := BitVec.ofNat 32 c.length }

/-- R214: `OUT_LEN <- 0` and `OUT[i] <- ⊥` for every `i`. -/
def State.invalidateOut (s : State) : State := { s with outBuf := [], outLen := 0 }

/-- R166, R167: `DOUT <- v`, both halves in one step (R26). -/
def State.setDout (s : State) (v : Block) : State :=
  { s with doutHi := some (v.extractLsb' 32 32), doutLo := some (v.extractLsb' 0 32) }

/-- R214: `DOUT_HI <- ⊥` and `DOUT_LO <- ⊥`. -/
def State.invalidateDout (s : State) : State := { s with doutHi := none, doutLo := none }

/-- R55: `IN[i] <- b`. -/
def State.writeIn (s : State) (i : Nat) (b : Byte) : State := { s with inBuf := s.inBuf.write i b }

/-- R55: `IN_LEN <- w`. -/
def State.setInLen (s : State) (w : Word) : State := { s with inLen := w }

/-- R55: `DIN_HI <- w`; the other half stays as it is. -/
def State.setDinHi (s : State) (w : Word) : State := { s with dinHi := some w }

/-- R55: `DIN_LO <- w`; the other half stays as it is. -/
def State.setDinLo (s : State) (w : Word) : State := { s with dinLo := some w }

/-- R61: a host read returned `v`. -/
def State.observe (s : State) (v : ReadValue) : State := { s with observed := s.observed ++ [v] }

/-- The host program's remaining actions (R60). -/
def State.setProgram (s : State) (p : List HostAction) : State := { s with program := p }

/-- R240: reset sets every piece of the core's state to its reset value. The parameter `IN_CAP`, the host's program and what it has
observed are no state of the core. -/
def State.resetCore (s : State) : State :=
  { State.resetWith s.inCap with program := s.program, observed := s.observed }

/-- R214: `raise E`: the end of a failing command. It writes the code and invalidates the outputs of the command that
failed; `none` stands for an illegal word (R84). Nothing else is recorded (R217). -/
def raiseError (command : Option Instr) (e : ErrCode) (s : State) : Result :=
  match command with
  | some .enc | some .dec => .next (s.setErr e).invalidateOut
  | some .encb | some .decb => .next (s.setErr e).invalidateDout
  | some .ldkey | none => .next (s.setErr e)

end Sys2Proof.Machine
end

