-- ==== Sys2Proof/Machine/Operands.lean ====
section
/-!
DEFINITION. The operands of the commands. Each is a fixed register or buffer (R83), and each may hold `⊥`, which the reading command
answers with the fault `UnwrittenRead` (R220).
-/

namespace Sys2Proof.Machine

/-- `IN[0..8)`, the operand of `LDKEY` (R126). -/
def State.keyOperand (s : State) : Held (List Byte) := s.inBuf.readBytes 0 8

/-- `IN[0..IN_LEN)`, the payload `ENC` and `DEC` read (R186, R187). -/
def State.payloadOperand (s : State) : Held (List Byte) := s.inBuf.readBytes 0 s.inLen.toNat

/-- `DIN_HI ‖ DIN_LO`, the block `ENCB` and `DECB` read (R166, R167); `⊥` when either half is. -/
def State.blockOperand (s : State) : Held Block :=
  match s.dinHi, s.dinLo with
  | some hi, some lo => some (hi ++ lo)
  | _, _ => none

/-- `SK[0..15]`, the schedule the four cryptographic commands read (R24); `⊥` when any entry is. -/
def State.scheduleOperand (s : State) : Held Schedule :=
  if s.sk.toList.all Option.isSome then some ⟨(s.sk.toList.map (·.getD 0)).toArray, by simp⟩ else none

end Sys2Proof.Machine
end

