-- ==== Sys2Proof/Machine/Bits.lean ====
section
/-!
DEFINITION. The bit and byte-sequence primitives of `00_scope.md` (R13 to R17) and of `20_memory.md` (R50): DES positions, the
permutation and rotation primitives, and how bytes pack into blocks.
-/

namespace Sys2Proof.Machine

/-- R13: position `p` of an `n`-bit value, counted from 1 at the most significant bit: `pos_n(v, p) = v[n - p]`. -/
def pos {n : Nat} (v : BitVec n) (p : Nat) : Bool := v.getLsbD (n - p)

/-- The number whose binary digits, most significant first, are the given bits. -/
def packBits : List Bool → Nat
  | [] => 0
  | b :: bs => b.toNat * 2 ^ bs.length + packBits bs

/-- R14: `permute(T, v, n)`, whose position `j` is position `T[j]` of `v`. The table's type gives the width of the result. -/
def permute {m n : Nat} (T : Vector Nat m) (v : BitVec n) : BitVec m :=
  BitVec.ofNat m (packBits (T.toList.map (pos v)))

/-- R15: rotation of a 28-bit half to the left by `s` bits, `x[27-s:0] ‖ x[27:28-s]`. -/
def rotl28 (x : KeyHalf) (s : Nat) : KeyHalf := (x <<< s) ||| (x >>> (28 - s))

/-- R17, R50: `blk(s) = s[0] ‖ s[1] ‖ ... ‖ s[7]` of an 8-byte sequence: byte 0 is the most significant. The rule gives it for
8 bytes only, and the model applies it to nothing else; the last arm makes the function total. -/
def blk : List Byte → Block
  | [s0, s1, s2, s3, s4, s5, s6, s7] => s0 ++ s1 ++ s2 ++ s3 ++ s4 ++ s5 ++ s6 ++ s7
  | _ => 0

/-- R17, R50: the inverse of `blk`, `unblk(v)[j] = v[63-8j : 56-8j]`. -/
def unblk (v : Block) : List Byte :=
  [v.extractLsb' 56 8, v.extractLsb' 48 8, v.extractLsb' 40 8, v.extractLsb' 32 8,
   v.extractLsb' 24 8, v.extractLsb' 16 8, v.extractLsb' 8 8, v.extractLsb' 0 8]

/-- R181: `SPLIT(q)`, the consecutive 8-byte blocks of `q` in order. The rule gives it for a multiple of 8 bytes; bytes after
the last whole block are in no block. -/
def splitBlocks : List Byte → List Block
  | b0 :: b1 :: b2 :: b3 :: b4 :: b5 :: b6 :: b7 :: rest => blk [b0, b1, b2, b3, b4, b5, b6, b7] :: splitBlocks rest
  | _ => []

/-- R181: `JOIN`, the bytes of the blocks in order. -/
def joinBlocks : List Block → List Byte
  | [] => []
  | v :: vs => unblk v ++ joinBlocks vs

end Sys2Proof.Machine
end

