-- ==== Sys2Proof/Machine/Feistel.lean ====
section
/-!
DEFINITION. The Feistel round engine (`42_feistel.md`, R140 to R147): pure functions that no command runs alone. The block cipher
runs them.
-/

namespace Sys2Proof.Machine

/-- R140: the expansion stage. -/
def expandHalf (r : Half) : BitVec 48 := permute expansion r

/-- R141: the key-mixing stage. -/
def mixKey (e : BitVec 48) (k : Subkey) : BitVec 48 := e ^^^ k

/-- R142: group `Bk`, for `k` in 1..8, is `X[53-6k : 48-6k]`; group 1 is the leftmost. -/
def sboxGroup (x : BitVec 48) (k : Nat) : BitVec 6 := x.extractLsb' (48 - 6 * k) 6

/-- R105: the entry of a box at row `b[5] ‖ b[0]` and column `b[4:1]`. -/
def sboxLookup (box : SBox) (b : BitVec 6) : BitVec 4 :=
  (box[(b.extractLsb' 5 1 ++ b.extractLsb' 0 1).toFin])[(b.extractLsb' 1 4).toFin]

/-- R143: the substitution stage: group `k` goes through box `Sk`, and `S1`'s output is the leftmost. -/
def substitute (x : BitVec 48) : BitVec 32 :=
  sboxLookup s1 (sboxGroup x 1) ++ sboxLookup s2 (sboxGroup x 2) ++ sboxLookup s3 (sboxGroup x 3) ++ sboxLookup s4 (sboxGroup x 4)
    ++ sboxLookup s5 (sboxGroup x 5) ++ sboxLookup s6 (sboxGroup x 6) ++ sboxLookup s7 (sboxGroup x 7) ++ sboxLookup s8 (sboxGroup x 8)

/-- R144, R145: the round function `F`. -/
def roundF (r : Half) (k : Subkey) : Half := permute roundPerm (substitute (mixKey (expandHalf r) k))

/-- R146: one Feistel round, `ROUND(L, R, K) = (R, L ^ F(R, K))`. -/
def feistelRound (lr : Half × Half) (k : Subkey) : Half × Half := (lr.2, lr.1 ^^^ roundF lr.2 k)

end Sys2Proof.Machine
end

