-- ==== Sys2Proof/Machine/Transform.lean ====
section
/-!
DEFINITION. The block cipher's stages and `TRANSFORM` (`43_block_cipher.md`, R160 to R165): pure functions that `ENCB`, `DECB`,
`ENC` and `DEC` run.
-/

namespace Sys2Proof.Machine

/-- R160: the initial-permutation stage, giving the halves `(L0, R0)`. -/
def initialHalves (b : Block) : Half × Half :=
  let x := permute initialPerm b
  (x.extractLsb' 32 32, x.extractLsb' 0 32)

/-- R161: the subkeys in the order the rounds use them: `SK[0], ..., SK[15]` forward and `SK[15], ..., SK[0]` backward. -/
def subkeyOrder (sk : Schedule) (forward : Bool) : List Subkey :=
  if forward then sk.toList else sk.toList.reverse

/-- R162: the rounds, one per subkey, in order. -/
def runRounds (ks : List Subkey) (lr : Half × Half) : Half × Half := ks.foldl feistelRound lr

/-- R163, R164: undo the last swap (the pre-output is `R16 ‖ L16`) and apply the final permutation. -/
def finalStage (lr : Half × Half) : Block := permute finalPerm (lr.2 ++ lr.1)

/-- R165: `TRANSFORM(B, SK, forward)`. -/
def transform (b : Block) (sk : Schedule) (forward : Bool) : Block :=
  finalStage (runRounds (subkeyOrder sk forward) (initialHalves b))

end Sys2Proof.Machine
end

