-- ==== Sys2Proof/Machine/BlockCommands.lean ====
section
/-!
DEFINITION. The meanings of `ENCB` and `DECB` (`43_block_cipher.md` section 3, R166 and R167).
-/

namespace Sys2Proof.Machine

/-- R166, R167: what the two block commands share: transform the block in `DIN` into `DOUT`. The key check comes before `DIN` is
read (R216). With a key and a `⊥` half of `DIN`, "the result is a model fault" (R166, R167), that of R220. -/
def runBlock (command : Instr) (forward : Bool) (s : State) : Result :=
  if s.keyValid = false then raiseError (some command) .noKey s
  else
    match s.blockOperand, s.scheduleOperand with
    | some b, some sk => .next ((s.setDout (transform b sk forward)).setErr .none)
    | _, _ => .fault .unwrittenRead

/-- R166: encrypt one block. -/
def execEncb (s : State) : Result := runBlock .encb true s

/-- R167: decrypt one block. -/
def execDecb (s : State) : Result := runBlock .decb false s

end Sys2Proof.Machine
end

