-- ==== Sys2Proof/Machine/KeySchedule.lean ====
section
/-!
DEFINITION. The key scheduler's functions (`41_key_schedule.md`, R120 to R125): pure functions that the command `LDKEY` runs.
-/

namespace Sys2Proof.Machine

/-- R120: the `PC1` stage, which drops the parity bits and gives the halves `(C0, D0)`. -/
def pc1Stage (k : Block) : KeyHalf × KeyHalf :=
  let cd0 := permute pc1 k
  (cd0.extractLsb' 28 28, cd0.extractLsb' 0 28)

/-- R121: the rotation stage of a round that shifts by `s`; the two halves rotate separately. -/
def rotateHalves (cd : KeyHalf × KeyHalf) (s : Nat) : KeyHalf × KeyHalf := (rotl28 cd.1 s, rotl28 cd.2 s)

/-- R122: the `PC2` stage, which selects the subkey from `C ‖ D`. -/
def pc2Stage (cd : KeyHalf × KeyHalf) : Subkey := permute pc2 (cd.1 ++ cd.2)

/-- R123: the subkeys of the rounds whose shifts are given, from the halves before the first of them. -/
def subkeysFrom (cd : KeyHalf × KeyHalf) : List Nat → List Subkey
  | [] => []
  | s :: ss => pc2Stage (rotateHalves cd s) :: subkeysFrom (rotateHalves cd s) ss

theorem subkeysFrom_length (cd : KeyHalf × KeyHalf) (ss : List Nat) : (subkeysFrom cd ss).length = ss.length := by
  induction ss generalizing cd with
  | nil => rfl
  | cons s ss ih => simp [subkeysFrom, ih]

/-- R123: the schedule function `KS`: entry `i-1` is the subkey `Ki` of round `i`. -/
def keySchedule (k : Block) : Schedule :=
  ⟨(subkeysFrom (pc1Stage k) shifts.toList).toArray, by simp [subkeysFrom_length]⟩

end Sys2Proof.Machine
end

