-- ==== Sys2Proof/Machine/KeyCommands.lean ====
section
/-!
DEFINITION. The meaning of `LDKEY` (`41_key_schedule.md` section 2, R126 to R128).
-/

namespace Sys2Proof.Machine

/-- R126, R127: load the key in `IN[0..8)` and derive its schedule. With `IN_LEN` = 8 and a `⊥` byte among the eight, "the result is a
model fault" (R126), that of R220. -/
def execLdkey (s : State) : Result :=
  if s.inLen ≠ 8 then raiseError (some .ldkey) .invalidKeyLength s
  else
    match s.keyOperand with
    | none => .fault .unwrittenRead
    | some bs => .next ((s.loadKey (blk bs) (keySchedule (blk bs))).setErr .none)

end Sys2Proof.Machine
end

