-- ==== Sys2Proof/Machine/Framer.lean ====
section
/-!
DEFINITION. The padding and framing layer's functions (`44_framer.md`, R180 to R184): pure functions that `ENC` and `DEC` run.
-/

namespace Sys2Proof.Machine

/-- R180: the padding count of a payload of `len` bytes, `8 - (len mod 8)`, always in 1..8. -/
def padCount (len : Nat) : Nat := 8 - len % 8

/-- R180: `PAD`: append `n` bytes, each of value `n`. -/
def pad (p : List Byte) : List Byte :=
  p ++ List.replicate (padCount p.length) (BitVec.ofNat 8 (padCount p.length))

/-- The padding count an unpadding reads: the last byte (R182). The rule gives `UNPAD` for sequences that are not empty. -/
def lastCount (q : List Byte) : Nat := (q.getLastD 0).toNat

/-- R182: `UNPAD`: both the count and the value check (`90_conflicts.md` C3); then the sequence without its last `n` bytes. -/
def unpad (q : List Byte) : Except ErrCode (List Byte) :=
  let n := lastCount q
  if n < 1 ∨ n > 8 then .error .malformedPadding
  else if q.drop (q.length - n) ≠ List.replicate n (BitVec.ofNat 8 n) then .error .malformedPadding
  else .ok (q.take (q.length - n))

/-- R183, R184: transform each block of a sequence alone, in ascending order (R190), and join the results. -/
def transformBlocks (q : List Byte) (sk : Schedule) (forward : Bool) : List Byte :=
  joinBlocks ((splitBlocks q).map fun v => transform v sk forward)

/-- R183: `ENCRYPT_PAYLOAD(p, SK)`. -/
def encryptPayload (p : List Byte) (sk : Schedule) : List Byte := transformBlocks (pad p) sk true

/-- R184, R187: a length that is no ciphertext's: zero, or not a multiple of 8. -/
def badCiphertextLength (n : Nat) : Bool := n == 0 || n % 8 != 0

/-- R184: `DECRYPT_PAYLOAD(c, SK)`: the length check comes before any block is transformed. -/
def decryptPayload (c : List Byte) (sk : Schedule) : Except ErrCode (List Byte) :=
  if badCiphertextLength c.length then .error .invalidCiphertextLength
  else unpad (transformBlocks c sk false)

end Sys2Proof.Machine
end

