-- ==== Sys2Proof/Machine/PayloadCommands.lean ====
section
/-!
DEFINITION. The meanings of `ENC` and `DEC` (`44_framer.md` section 2, R186 and R187).
-/

namespace Sys2Proof.Machine

/-- R186: encrypt the payload in `IN[0..IN_LEN)`. The checks come before any byte of `IN` is read (R216). After them "a
`⊥` byte in `IN[0..IN_LEN)` is a model fault" (R186), that of R220. -/
def execEnc (s : State) : Result :=
  if s.keyValid = false then raiseError (some .enc) .noKey s
  else if s.inLen.toNat > s.inCap.val then raiseError (some .enc) .capacityExceeded s
  else
    match s.payloadOperand, s.scheduleOperand with
    | some p, some sk => .next ((s.setOut (encryptPayload p sk)).setErr .none)
    | _, _ => .fault .unwrittenRead

/-- R187: decrypt the payload in `IN[0..IN_LEN)`. The key, capacity and length checks come before any byte of `IN` is read, the
padding check after every block is transformed (R216). "A `⊥` byte in `IN[0..IN_LEN)`, once the length check has passed, is a model
fault" (R187), that of R220. -/
def execDec (s : State) : Result :=
  if s.keyValid = false then raiseError (some .dec) .noKey s
  else if s.inLen.toNat > s.inCap.val then raiseError (some .dec) .capacityExceeded s
  else if badCiphertextLength s.inLen.toNat then raiseError (some .dec) .invalidCiphertextLength s
  else
    match s.payloadOperand, s.scheduleOperand with
    | some c, some sk =>
      match decryptPayload c sk with
      | .error e => raiseError (some .dec) e s
      | .ok p => .next ((s.setOut p).setErr .none)
    | _, _ => .fault .unwrittenRead

end Sys2Proof.Machine
end

