-- ==== Sys2Proof/Machine/Flags.lean ====
section
/-!
DEFINITION. The status register (R31, R34, R210). The core has no other flag.
-/

namespace Sys2Proof.Machine

/-- R210: the number of an error code. -/
def ErrCode.code : ErrCode → BitVec 4
  | .none => 0
  | .invalidKeyLength => 1
  | .invalidCiphertextLength => 2
  | .malformedPadding => 3
  | .noKey => 4
  | .illegalCommand => 5
  | .capacityExceeded => 6

/-- R31: `STATUS`: `KEY_VALID` in bit 0, `ERR` in bits 7:4, every other bit hardwired 0. -/
def statusOf (keyValid : Bool) (e : ErrCode) : Word := 0#24 ++ e.code ++ 0#3 ++ BitVec.ofBool keyValid

/-- R31: the value of `STATUS` in a state. -/
def State.statusWord (s : State) : Word := statusOf s.keyValid s.err

end Sys2Proof.Machine
end

