-- ==== Sys2Proof/Machine/HostPort.lean ====
section
/-!
DEFINITION. The host interface (`20_memory.md`, R53 to R57, and `30_encoding.md` R80): the address map, host writes and reads, the issue of a
command, and the effect of one host action.
-/

namespace Sys2Proof.Machine

/-- R11, R53: the host offset of `IN[0]`. -/
def inBase : Nat := 0x10000

/-- R11, R53: the host offset of `OUT[0]`. -/
def outBase : Nat := 0x20000

/-- R11, R29: `OUT_CAP = IN_CAP + 8`. -/
def outCap (cap : InCap) : Nat := cap.val + 8

/-- The registers of the map of R53. -/
inductive Reg where
  | cmd | status | inLen | outLen | dinHi | dinLo | doutHi | doutLo
deriving DecidableEq, Repr

/-- What a host offset names (R53, R54). -/
inductive Target where
  /-- The register at this multiple of 4. -/
  | reg (r : Reg)
  /-- An offset below 0x20 that is not a multiple of 4. -/
  | misaligned
  /-- `IN[i]`. -/
  | inCell (i : Nat)
  /-- `OUT[i]`. -/
  | outCell (i : Nat)
  /-- A reserved offset. -/
  | reserved
deriving DecidableEq, Repr

/-- R53: the register at an offset below 0x20; none at an offset that is not a multiple of 4 (R54). -/
def registerAt (off : Nat) : Option Reg :=
  if off = 0x00 then some .cmd
  else if off = 0x04 then some .status
  else if off = 0x08 then some .inLen
  else if off = 0x0C then some .outLen
  else if off = 0x10 then some .dinHi
  else if off = 0x14 then some .dinLo
  else if off = 0x18 then some .doutHi
  else if off = 0x1C then some .doutLo
  else none

/-- R53: the host address map of a core with the given `IN_CAP`. -/
def locate (cap : InCap) (off : Nat) : Target :=
  if off < 0x20 then
    match registerAt off with
    | some r => .reg r
    | none => .misaligned
  else if inBase ≤ off ∧ off < inBase + cap.val then .inCell (off - inBase)
  else if outBase ≤ off ∧ off < outBase + outCap cap then .outCell (off - outBase)
  else .reserved

/-- R80, R87: a host write of word `w` to `CMD` performs `exec(decode(w))`; an illegal word raises `IllegalCommand` (R84). -/
def issue (w : Word) (s : State) : Result :=
  match decode w with
  | .command i => exec i s
  | .illegal _ => raiseError none .illegalCommand s

/-- R53, R55, R57: a 32-bit host write to a register. -/
def writeReg (r : Reg) (w : Word) (s : State) : Result :=
  match r with
  | .cmd => issue w s
  | .inLen => .next (s.setInLen w)
  | .dinHi => .next (s.setDinHi w)
  | .dinLo => .next (s.setDinLo w)
  | .status | .outLen | .doutHi | .doutLo => .refused .readOnlyWritten

/-- R54, R55, R57: a host write. -/
def hostWrite (width off : Nat) (v : BitVec width) (s : State) : Result :=
  match locate s.inCap off with
  | .reg r => if width = 32 then writeReg r (v.setWidth 32) s else .refused .improperWidth
  | .inCell i => if width = 8 then .next (s.writeIn i (v.setWidth 8)) else .refused .improperWidth
  | .outCell _ => if width = 8 then .refused .readOnlyWritten else .refused .improperWidth
  | .misaligned => .refused .misalignedRegister
  | .reserved => .refused .reservedOffset

/-- R56, R220: a host read of a cell returns its value and changes nothing else; a read of `⊥` is a fault. -/
def returnRead (v : Held ReadValue) (s : State) : Result :=
  match v with
  | some x => .next (s.observe x)
  | none => .fault .unwrittenRead

/-- R53, R56, R57: a 32-bit host read of a register. -/
def readReg (r : Reg) (s : State) : Result :=
  match r with
  | .cmd => .refused .commandRead
  | .status => returnRead (some (.word s.statusWord)) s
  | .inLen => returnRead (some (.word s.inLen)) s
  | .outLen => returnRead (some (.word s.outLen)) s
  | .dinHi => returnRead (s.dinHi.map .word) s
  | .dinLo => returnRead (s.dinLo.map .word) s
  | .doutHi => returnRead (s.doutHi.map .word) s
  | .doutLo => returnRead (s.doutLo.map .word) s

/-- R54, R56, R57: a host read. -/
def hostRead (width off : Nat) (s : State) : Result :=
  match locate s.inCap off with
  | .reg r => if width = 32 then readReg r s else .refused .improperWidth
  | .inCell i => if width = 8 then returnRead ((s.inBuf.read i).map .byte) s else .refused .improperWidth
  | .outCell i => if width = 8 then returnRead ((s.outBuf.read i).map .byte) s else .refused .improperWidth
  | .misaligned => .refused .misalignedRegister
  | .reserved => .refused .reservedOffset

/-- R60: the effect of one host action. -/
def performAction (a : HostAction) (s : State) : Result :=
  match a with
  | .write width off v => hostWrite width off v s
  | .read width off => hostRead width off s
  | .reset => .next s.resetCore

end Sys2Proof.Machine
end

