-- ==== Sys2Proof/Machine/Step.lean ====
section
/-!
DEFINITION. One step: the next action of the host's program. The core takes no step of its own (R20) and has no program counter (R21).
-/

namespace Sys2Proof.Machine

/-- R60, R63: perform the next action of the host program. When no action is left the run has ended (R61) and nothing changes
(R20, R228). -/
def step (s : State) : Host.Outcome State Fault Refusal :=
  match s.program with
  | [] => .next s
  | a :: rest => performAction a (s.setProgram rest)

/-- The state in which the host's next action writes the given word to `CMD`, before the actions it already had. The word's bits
above `nbits` are 0. -/
def State.withFetchWord (s : State) (nbits w : Nat) : State :=
  s.setProgram (.write 32 0x0000 (BitVec.ofNat 32 (w % 2 ^ nbits)) :: s.program)

end Sys2Proof.Machine
end

