-- ==== Sys2Proof/Machine/HostProgram.lean ====
section
/-!
DEFINITION. Host programs (`20_memory.md` R60, `30_encoding.md` R88, R95, R96): the lines of a program, the host actions each line stands for, and
the run of a program line by line. The text of a line is in Assembler.lean.
-/

namespace Sys2Proof.Machine

/-- R53: the host offset of a register. -/
def Reg.offset : Reg → Nat
  | .cmd => 0x00
  | .status => 0x04
  | .inLen => 0x08
  | .outLen => 0x0C
  | .dinHi => 0x10
  | .dinLo => 0x14
  | .doutHi => 0x18
  | .doutLo => 0x1C

/-- One line of a host program: an action of R95 or a pseudo-instruction of R96. -/
inductive Line where
  /-- `wr <reg>, <value32>`, with the register's offset or a hex offset. -/
  | wr (off : Nat) (v : Word)
  /-- `wrb IN[<i>], <value8>`. -/
  | wrb (i : Nat) (v : Byte)
  /-- `rd <reg>`. -/
  | rd (r : Reg)
  /-- `rdb IN[<i>]`. -/
  | rdbIn (i : Nat)
  /-- `rdb OUT[<i>]`. -/
  | rdbOut (i : Nat)
  /-- `cmd <mnemonic>`. -/
  | cmd (i : Instr)
  /-- `cmd <hex word>`. -/
  | cmdWord (w : Word)
  /-- `reset`. -/
  | reset
  | loadIn (bs : List Byte)
  | loadKey (bs : List Byte)
  | encrypt (bs : List Byte)
  | decrypt (bs : List Byte)
  | setBlk (v : Block)
  | encBlk (v : Block)
  | decBlk (v : Block)
  | readOut
  | readBlk
deriving DecidableEq, Repr

/-- R88: `cmd M` stands for `wr 0x0000, W` with `W` the mnemonic's word. -/
def commandAction (i : Instr) : HostAction := .write 32 0x0000 (encode i)

/-- R96: `wrb IN[i], b_0`, `wrb IN[i+1], b_1` and so on. -/
def writeInActions (i : Nat) : List Byte → List HostAction
  | [] => []
  | b :: bs => .write 8 (inBase + i) b :: writeInActions (i + 1) bs

/-- R96: `LOADIN <bytes>`. -/
def loadInActions (bs : List Byte) : List HostAction :=
  writeInActions 0 bs ++ [.write 32 Reg.inLen.offset (BitVec.ofNat 32 bs.length)]

/-- R96: `SETBLK <v64>`. -/
def setBlkActions (v : Block) : List HostAction :=
  [.write 32 Reg.dinHi.offset (v.extractLsb' 32 32), .write 32 Reg.dinLo.offset (v.extractLsb' 0 32)]

/-- R96: `rdb OUT[i]` for `n` cells from `i` on. -/
def readOutActions (i : Nat) : Nat → List HostAction
  | 0 => []
  | n + 1 => .read 8 (outBase + i) :: readOutActions (i + 1) n

/-- R95, R96: the actions a line stands for. `READOUT` reads as many bytes as `OUT_LEN` says when the line is reached. -/
def Line.expand (outLen : Word) : Line → List HostAction
  | .wr off v => [.write 32 off v]
  | .wrb i v => [.write 8 (inBase + i) v]
  | .rd r => [.read 32 r.offset]
  | .rdbIn i => [.read 8 (inBase + i)]
  | .rdbOut i => [.read 8 (outBase + i)]
  | .cmd i => [commandAction i]
  | .cmdWord w => [.write 32 0x0000 w]
  | .reset => [.reset]
  | .loadIn bs => loadInActions bs
  | .loadKey bs => loadInActions bs ++ [commandAction .ldkey]
  | .encrypt bs => loadInActions bs ++ [commandAction .enc]
  | .decrypt bs => loadInActions bs ++ [commandAction .dec]
  | .setBlk v => setBlkActions v
  | .encBlk v => setBlkActions v ++ [commandAction .encb]
  | .decBlk v => setBlkActions v ++ [commandAction .decb]
  | .readOut => [.read 32 Reg.status.offset, .read 32 Reg.outLen.offset] ++ readOutActions 0 outLen.toNat
  | .readBlk => [.read 32 Reg.status.offset, .read 32 Reg.doutHi.offset, .read 32 Reg.doutLo.offset]

/-- R60, R61: perform actions one after another, up to the first fault or refusal. -/
def performActions : List HostAction → State → Result
  | [], s => .next s
  | a :: rest, s =>
    match performAction a s with
    | .next t => performActions rest t
    | .fault r => .fault r
    | .refused r => .refused r

/-- Run the lines of a host program. -/
def runLines : List Line → State → Result
  | [], s => .next s
  | l :: rest, s =>
    match performActions (l.expand s.outLen) s with
    | .next t => runLines rest t
    | .fault r => .fault r
    | .refused r => .refused r

end Sys2Proof.Machine
end

