-- ==== Sys2Proof/Safety.lean ====
section
/-!
DEFINITION. The terms statements are made in: what an action is, which states the core can be in, and what a successful run is.
-/

namespace Sys2Proof.Machine

/-- The action that issues the command of the word `w` (R80). -/
abbrev HostAction.command (w : Word) : HostAction := .write 32 0x0000 w

/-- `SK[0..15]` when every entry holds `⊥` (R38). -/
def emptySchedule : Vector (Held Subkey) 16 := Vector.replicate 16 none

/-- `SK[0..15]` when the entries hold the schedule `sk` (R24). -/
def heldSchedule (sk : Schedule) : Vector (Held Subkey) 16 := ⟨(sk.toList.map some).toArray, by simp⟩

/-- What holds of the core in every state a run from reset reaches. -/
structure State.Consistent (s : State) : Prop where
  /-- `IN` is in canonical form. -/
  inCanonical : s.inBuf.wf = true
  /-- `OUT` is in canonical form. -/
  outCanonical : s.outBuf.wf = true
  /-- Only cells `IN[0..IN_CAP)` exist (R27). -/
  inWithinCapacity : ∀ i, (s.inBuf.read i).isSome = true → i < s.inCap.val
  /-- Exactly the cells `OUT[0..OUT_LEN)` hold a value (R29). -/
  outHoldsResult : ∀ i, (s.outBuf.read i).isSome = true ↔ i < s.outLen.toNat
  /-- The result fits in `OUT` (R29, R186). -/
  outFits : s.outLen.toNat ≤ outCap s.inCap
  /-- With `KEY_VALID = 1`, `KEY` and `SK[0..15]` hold a key and its schedule (R23). -/
  keyed : s.keyValid = true → ∃ k, s.key = some k ∧ s.sk = heldSchedule (keySchedule k)
  /-- With `KEY_VALID = 0`, no key was loaded since reset (R22, R24, R212). -/
  unkeyed : s.keyValid = false → s.key = none ∧ s.sk = emptySchedule
  /-- The halves of `DOUT` are written together (R26). -/
  doutWhole : s.doutHi.isSome = s.doutLo.isSome

/-- R61: the run of the host program in `s` ends, without a fault or a refusal, in `t`. -/
def RunEnds (s t : State) : Prop := Sys2Proof.core.run s.program.length s = .next t ∧ t.program = []

end Sys2Proof.Machine
end

