-- ==== Sys2Proof/Certificates/Slice0/Obligations.lean ====
section
/-!
DEFINITION. The statements for the provers. `HostAction.command w` is the host write of the word `w` to `CMD`; `heldSchedule` and `emptySchedule` are the
contents of `SK[0..15]` when it holds a schedule and when every entry holds `⊥`; `none` in a cell is the spec's `⊥`.
-/

open Sys2Proof Sys2Proof.Machine

/-! ### Encoding and the step -/

/-- R82: each of the five words decodes to its command; the worked examples of R87 and the illegal words of `95_test_vectors.md` 2.6. -/
def Obligations.OpcodeMapWordsDecode : Prop :=
  decode 0x00000001 = .command .ldkey ∧ decode 0x00000002 = .command .enc ∧ decode 0x00000003 = .command .dec ∧
  decode 0x00000004 = .command .encb ∧ decode 0x00000005 = .command .decb ∧
  decode 0x00000103 = .illegal .reservedBits ∧ decode 0x80000001 = .illegal .reservedBits ∧
  decode 0x00000000 = .illegal .unknownOp ∧ decode 0x00000006 = .illegal .unknownOp ∧
  decode 0x000000FF = .illegal .unknownOp

/-- R82: the decoder and the encoder agree, and each command is selected by its exact 32-bit word and no other. -/
def Obligations.DecodeEncodeAgree : Prop :=
  (∀ i : Instr, i.wf = true → decode (encode i) = .command i) ∧
  (∀ (w : Word) (i : Instr), decode w = .command i → encode i = w) ∧
  (∀ w : Word,
    (decode w = .command .ldkey ↔ w = 0x00000001) ∧ (decode w = .command .enc ↔ w = 0x00000002) ∧
    (decode w = .command .dec ↔ w = 0x00000003) ∧ (decode w = .command .encb ↔ w = 0x00000004) ∧
    (decode w = .command .decb ↔ w = 0x00000005))

/-- R84: which words are illegal, and that the only effect of one is `STATUS.ERR <- 5`. -/
def Obligations.IllegalWordsOnlySetErr : Prop :=
  ErrCode.illegalCommand.code = 5 ∧
  ∀ w : Word,
    ((∃ why, decode w = .illegal why) ↔
      (w.extractLsb' 8 24 ≠ 0 ∨ w.extractLsb' 0 8 = 0 ∨ 6 ≤ (w.extractLsb' 0 8).toNat)) ∧
    ((∃ why, decode w = .illegal why) ↔ w ≠ 1 ∧ w ≠ 2 ∧ w ≠ 3 ∧ w ≠ 4 ∧ w ≠ 5) ∧
    ((∃ why, decode w = .illegal why) →
      ∀ s : State, performAction (.command w) s = .next { s with err := .illegalCommand })

/-- When the host's next action writes a word to `CMD`, the step is `exec(decode(w))` on the state with that action taken off the
program, and an illegal word raises `IllegalCommand` (`30_encoding.md` section 1). That the host's actions stand in the field
`program`, from which a step takes one, and the clause on the word that `withFetchWord` places are the model's own device: log
entry 4, DESIGN CHOICE. -/
def Obligations.StepIssuesDecodedCommand : Prop :=
  ∀ (s : State) (w : Word) (rest : List HostAction), s.program = .command w :: rest →
    (∀ i, decode w = .command i →
      step s = exec i { s with program := rest } ∧ step (s.withFetchWord 32 w.toNat) = exec i s) ∧
    (∀ why, decode w = .illegal why → step s = .next { s with program := rest, err := .illegalCommand })

/-- R60, R63: a step performs the host's next action and takes it off the program. The second clause, that a step with no action
left changes nothing, is the model's own choice (log entry 3). -/
def Obligations.StepPerformsNextAction : Prop :=
  (∀ (s : State) (a : HostAction) (rest : List HostAction), s.program = a :: rest →
    step s = performAction a { s with program := rest }) ∧
  (∀ s : State, s.program = [] → step s = .next s)

/-- R60, R61: stepping through the whole host program gives what performing its actions one after another gives, with the
same fault or refusal when one of them stops the run; the run ends exactly when every action is performed. -/
def Obligations.StepwiseRunIsProgramRun : Prop :=
  ∀ s : State, Sys2Proof.core.run s.program.length s = performActions s.program { s with program := [] } ∧
    ∀ t, RunEnds s t ↔ performActions s.program { s with program := [] } = .next t

/-! ### Reset -/

/-- R38: every piece of state at its reset value. -/
def Obligations.ResetValues : Prop :=
  State.reset.key = none ∧ State.reset.keyValid = false ∧
  (∀ i : Fin 16, State.reset.sk[i] = none) ∧
  State.reset.dinHi = none ∧ State.reset.dinLo = none ∧ State.reset.doutHi = none ∧ State.reset.doutLo = none ∧
  (∀ i, State.reset.inBuf.read i = none) ∧ State.reset.inLen = 0 ∧
  (∀ i, State.reset.outBuf.read i = none) ∧ State.reset.outLen = 0 ∧
  State.reset.statusWord = 0 ∧ State.reset.err = .none

/-- R240: the reset action puts the core into the reset state from every state, in one step. The parameter `IN_CAP`, the rest of
the host's program and what the host has observed stay. -/
def Obligations.ResetActionRestoresReset : Prop :=
  ∀ s : State, ∃ t, performAction .reset s = .next t ∧
    t.key = none ∧ t.keyValid = false ∧ (∀ i : Fin 16, t.sk[i] = none) ∧
    t.dinHi = none ∧ t.dinLo = none ∧ t.doutHi = none ∧ t.doutLo = none ∧
    (∀ i, t.inBuf.read i = none) ∧ t.inLen = 0 ∧ (∀ i, t.outBuf.read i = none) ∧ t.outLen = 0 ∧
    t.statusWord = 0 ∧ t.inCap = s.inCap ∧ t.program = s.program ∧ t.observed = s.observed

/-! ### The commands -/

/-- R126, R127: `LDKEY`: what it does with a key, with a wrong length (whatever `IN` holds), and with a `⊥` byte. -/
def Obligations.LdkeyLoadsKeyAndSchedule : Prop :=
  decode 0x00000001 = .command .ldkey ∧ ErrCode.invalidKeyLength.code = 1 ∧
  (∀ s : State, s.inLen ≠ 8 → exec .ldkey s = .next { s with err := .invalidKeyLength }) ∧
  (∀ (s : State) (bs : List Byte), s.inLen = 8 → bs.length = 8 → (∀ i, i < 8 → s.inBuf.read i = bs[i]?) →
    exec .ldkey s = .next { s with
      key := some (blk bs), sk := heldSchedule (keySchedule (blk bs)), keyValid := true, err := .none }) ∧
  (∀ s : State, s.inLen = 8 → (∃ i, i < 8 ∧ s.inBuf.read i = none) → exec .ldkey s = .fault .unwrittenRead) ∧
  blk [0x54, 0x45, 0x53, 0x54, 0x4B, 0x45, 0x59, 0x31] = 0x544553544B455931 ∧
  (keySchedule 0x544553544B455931)[0] = 0xB092226D6050 ∧ (keySchedule 0x544553544B455931)[15] = 0xE092A2801BE1

/-- R166: `ENCB`. -/
def Obligations.EncbEncryptsDin : Prop :=
  decode 0x00000004 = .command .encb ∧ ErrCode.noKey.code = 4 ∧
  (∀ s : State, s.keyValid = false →
    exec .encb s = .next { s with doutHi := none, doutLo := none, err := .noKey }) ∧
  (∀ (s : State) (sk : Schedule) (hi lo : Word), s.keyValid = true → s.sk = heldSchedule sk →
    s.dinHi = some hi → s.dinLo = some lo →
    ∃ t, exec .encb s = .next t ∧
      t = { s with
        doutHi := some ((transform (hi ++ lo) sk true).extractLsb' 32 32)
        doutLo := some ((transform (hi ++ lo) sk true).extractLsb' 0 32)
        err := .none } ∧
      exec .encb t = .next t) ∧
  (∀ s : State, s.keyValid = true → s.dinHi = none ∨ s.dinLo = none → exec .encb s = .fault .unwrittenRead) ∧
  transform 0x0123456789ABCDEF (keySchedule 0x133457799BBCDFF1) true = 0x85E813540F0AB405

/-- R167: `DECB`, and that it undoes `ENCB` under the same schedule. -/
def Obligations.DecbDecryptsDin : Prop :=
  decode 0x00000005 = .command .decb ∧ ErrCode.noKey.code = 4 ∧
  (∀ s : State, s.keyValid = false →
    exec .decb s = .next { s with doutHi := none, doutLo := none, err := .noKey }) ∧
  (∀ (s : State) (sk : Schedule) (hi lo : Word), s.keyValid = true → s.sk = heldSchedule sk →
    s.dinHi = some hi → s.dinLo = some lo →
    exec .decb s = .next { s with
        doutHi := some ((transform (hi ++ lo) sk false).extractLsb' 32 32)
        doutLo := some ((transform (hi ++ lo) sk false).extractLsb' 0 32)
        err := .none }) ∧
  (∀ s : State, s.keyValid = true → s.dinHi = none ∨ s.dinLo = none → exec .decb s = .fault .unwrittenRead) ∧
  (∀ s t : State, exec .encb s = .next t → t.err = .none →
    exec .decb { t with dinHi := t.doutHi, dinLo := t.doutLo } =
      .next { t with dinHi := t.doutHi, dinLo := t.doutLo, doutHi := s.dinHi, doutLo := s.dinLo }) ∧
  transform 0x85E813540F0AB405 (keySchedule 0x133457799BBCDFF1) false = 0x0123456789ABCDEF

/-- R186: `ENC`. -/
def Obligations.EncEncryptsPayload : Prop :=
  decode 0x00000002 = .command .enc ∧ ErrCode.noKey.code = 4 ∧ ErrCode.capacityExceeded.code = 6 ∧
  (∀ s : State, s.keyValid = false →
    exec .enc s = .next { s with outBuf := [], outLen := 0, err := .noKey }) ∧
  (∀ s : State, s.keyValid = true → s.inCap.val < s.inLen.toNat →
    exec .enc s = .next { s with outBuf := [], outLen := 0, err := .capacityExceeded }) ∧
  (∀ (s : State) (sk : Schedule) (p : List Byte), s.keyValid = true → s.inLen.toNat ≤ s.inCap.val →
    s.sk = heldSchedule sk → p.length = s.inLen.toNat → (∀ i, i < p.length → s.inBuf.read i = p[i]?) →
    ∃ t, exec .enc s = .next t ∧
      t = { s with outBuf := t.outBuf, outLen := t.outLen, err := .none } ∧
      (∀ i, t.outBuf.read i = (encryptPayload p sk)[i]?) ∧ t.outBuf.wf = true ∧
      t.outLen.toNat = (encryptPayload p sk).length ∧
      t.outLen.toNat = 8 * (s.inLen.toNat / 8 + 1) ∧ t.outLen.toNat ≤ outCap s.inCap) ∧
  (∀ s : State, s.keyValid = true → s.inLen.toNat ≤ s.inCap.val →
    (∃ i, i < s.inLen.toNat ∧ s.inBuf.read i = none) → exec .enc s = .fault .unwrittenRead) ∧
  encryptPayload [0x48, 0x65, 0x6C, 0x6C, 0x6F, 0x31, 0x32, 0x33] (keySchedule 0x544553544B455931) =
    [0x9B, 0xBD, 0x2E, 0xCB, 0x91, 0x7F, 0xC3, 0x29, 0xBA, 0xF5, 0xC6, 0xAB, 0x3C, 0xA0, 0x45, 0xC4]

/-- R187: `DEC`. -/
def Obligations.DecDecryptsPayload : Prop :=
  decode 0x00000003 = .command .dec ∧ ErrCode.noKey.code = 4 ∧ ErrCode.capacityExceeded.code = 6 ∧
  ErrCode.invalidCiphertextLength.code = 2 ∧ ErrCode.malformedPadding.code = 3 ∧
  (∀ s : State, s.keyValid = false →
    exec .dec s = .next { s with outBuf := [], outLen := 0, err := .noKey }) ∧
  (∀ s : State, s.keyValid = true → s.inCap.val < s.inLen.toNat →
    exec .dec s = .next { s with outBuf := [], outLen := 0, err := .capacityExceeded }) ∧
  (∀ s : State, s.keyValid = true → s.inLen.toNat ≤ s.inCap.val →
    s.inLen.toNat = 0 ∨ s.inLen.toNat % 8 ≠ 0 →
    exec .dec s = .next { s with outBuf := [], outLen := 0, err := .invalidCiphertextLength }) ∧
  (∀ (s : State) (sk : Schedule) (ct : List Byte), s.keyValid = true → s.inLen.toNat ≤ s.inCap.val →
    s.inLen.toNat ≠ 0 → s.inLen.toNat % 8 = 0 →
    s.sk = heldSchedule sk → ct.length = s.inLen.toNat → (∀ i, i < ct.length → s.inBuf.read i = ct[i]?) →
    (∀ e, decryptPayload ct sk = .error e → e = .malformedPadding ∧
      exec .dec s = .next { s with outBuf := [], outLen := 0, err := .malformedPadding }) ∧
    (∀ p, decryptPayload ct sk = .ok p → ∃ t, exec .dec s = .next t ∧
      t = { s with outBuf := t.outBuf, outLen := t.outLen, err := .none } ∧
      (∀ i, t.outBuf.read i = p[i]?) ∧ t.outBuf.wf = true ∧ t.outLen.toNat = p.length ∧
      1 ≤ s.inLen.toNat - t.outLen.toNat ∧ s.inLen.toNat - t.outLen.toNat ≤ 8 ∧
      t.outLen.toNat ≤ s.inLen.toNat - 1 ∧ t.outLen.toNat < outCap s.inCap)) ∧
  (∀ s : State, s.keyValid = true → s.inLen.toNat ≤ s.inCap.val → s.inLen.toNat ≠ 0 → s.inLen.toNat % 8 = 0 →
    (∃ i, i < s.inLen.toNat ∧ s.inBuf.read i = none) → exec .dec s = .fault .unwrittenRead) ∧
  (decryptPayload [0xBA, 0xF5, 0xC6, 0xAB, 0x3C, 0xA0, 0x45, 0xC4] (keySchedule 0x544553544B455931) = .ok [])

/-- The frame of the commands: what each leaves unchanged when it answers a next state, and, for `ENC` and `DEC`, that every
`OUT` cell outside `OUT[0..OUT_LEN)` holds `⊥` afterwards. -/
def Obligations.CommandsLeaveTheRestUnchanged : Prop :=
  ∀ (i : Instr) (s t : State), exec i s = .next t →
    (∀ a, t.inBuf.read a = s.inBuf.read a) ∧ t.inBuf = s.inBuf ∧ t.inLen = s.inLen ∧
    t.dinHi = s.dinHi ∧ t.dinLo = s.dinLo ∧
    t.inCap = s.inCap ∧ t.program = s.program ∧ t.observed = s.observed ∧
    (i ≠ .ldkey → t.key = s.key ∧ t.sk = s.sk ∧ t.keyValid = s.keyValid) ∧
    (i = .ldkey ∨ i = .encb ∨ i = .decb →
      (∀ a, t.outBuf.read a = s.outBuf.read a) ∧ t.outBuf = s.outBuf ∧ t.outLen = s.outLen) ∧
    (i = .ldkey ∨ i = .enc ∨ i = .dec → t.doutHi = s.doutHi ∧ t.doutLo = s.doutLo) ∧
    (i = .enc ∨ i = .dec → ∀ a, t.outLen.toNat ≤ a → t.outBuf.read a = none)

/-- R214: what a failing command changes, for every command and for an illegal word. -/
def Obligations.FailingCommandEffects : Prop :=
  ErrCode.none.code = 0 ∧ ErrCode.invalidKeyLength.code = 1 ∧ ErrCode.invalidCiphertextLength.code = 2 ∧
  ErrCode.malformedPadding.code = 3 ∧ ErrCode.noKey.code = 4 ∧ ErrCode.illegalCommand.code = 5 ∧
  ErrCode.capacityExceeded.code = 6 ∧
  (∀ s t : State, exec .ldkey s = .next t → t.err ≠ .none →
    t.err = .invalidKeyLength ∧ t = { s with err := t.err }) ∧
  (∀ (i : Instr) (s t : State), i = .enc ∨ i = .dec → exec i s = .next t → t.err ≠ .none →
    (t.err = .invalidCiphertextLength ∨ t.err = .malformedPadding ∨ t.err = .noKey ∨ t.err = .capacityExceeded) ∧
    t = { s with err := t.err, outLen := 0, outBuf := t.outBuf } ∧ ∀ a, t.outBuf.read a = none) ∧
  (∀ (i : Instr) (s t : State), i = .encb ∨ i = .decb → exec i s = .next t → t.err ≠ .none →
    t.err = .noKey ∧ t = { s with err := t.err, doutHi := none, doutLo := none }) ∧
  (∀ (w : Word) (s : State), (∃ why, decode w = .illegal why) →
    performAction (.command w) s = .next { s with err := .illegalCommand })

/-- R211: the codes each command can report, and that it can report each of them. -/
def Obligations.ReportableCodes : Prop :=
  ErrCode.none.code = 0 ∧ ErrCode.invalidKeyLength.code = 1 ∧ ErrCode.invalidCiphertextLength.code = 2 ∧
  ErrCode.malformedPadding.code = 3 ∧ ErrCode.noKey.code = 4 ∧ ErrCode.illegalCommand.code = 5 ∧
  ErrCode.capacityExceeded.code = 6 ∧
  (∀ e, (∃ s t, exec .ldkey s = .next t ∧ t.err = e) ↔ e = .none ∨ e = .invalidKeyLength) ∧
  (∀ e, (∃ s t, exec .enc s = .next t ∧ t.err = e) ↔ e = .none ∨ e = .noKey ∨ e = .capacityExceeded) ∧
  (∀ e, (∃ s t, exec .dec s = .next t ∧ t.err = e) ↔
    e = .none ∨ e = .invalidCiphertextLength ∨ e = .malformedPadding ∨ e = .noKey ∨ e = .capacityExceeded) ∧
  (∀ e, (∃ s t, exec .encb s = .next t ∧ t.err = e) ↔ e = .none ∨ e = .noKey) ∧
  (∀ e, (∃ s t, exec .decb s = .next t ∧ t.err = e) ↔ e = .none ∨ e = .noKey) ∧
  (∀ e, (∃ w why s t, decode w = .illegal why ∧ performAction (.command w) s = .next t ∧ t.err = e) ↔
    e = .illegalCommand)

/-- R215: `STATUS.ERR` describes the last command: what a command reports does not depend on what stood there, only commands and reset
change it, and it is 0 after reset. -/
def Obligations.ErrDescribesLastCommand : Prop :=
  (∀ (w : Word) (e : ErrCode) (s : State),
    performAction (.command w) { s with err := e } = performAction (.command w) s) ∧
  (∀ (a : HostAction) (s t : State), performAction a s = .next t → (∀ w, a ≠ .command w) → a ≠ .reset →
    t.err = s.err) ∧
  (∀ s t : State, performAction .reset s = .next t → t.err = .none) ∧
  State.reset.err = .none ∧ ErrCode.none.code = 0

/-- R216: the first error that applies is the one reported, and the checks before the padding check succeed or fail
whatever `IN` holds. -/
def Obligations.ErrorPriority : Prop :=
  (∀ (w : Word) (s : State), (∃ why, decode w = .illegal why) →
    ∃ t, performAction (.command w) s = .next t ∧ t.err = .illegalCommand) ∧
  (∀ (i : Instr) (s : State), i = .enc ∨ i = .dec ∨ i = .encb ∨ i = .decb → s.keyValid = false →
    ∃ t, exec i s = .next t ∧ t.err = .noKey) ∧
  (∀ (i : Instr) (s : State), i = .enc ∨ i = .dec → s.keyValid = true → s.inCap.val < s.inLen.toNat →
    ∃ t, exec i s = .next t ∧ t.err = .capacityExceeded) ∧
  (∀ s : State, s.inLen ≠ 8 → ∃ t, exec .ldkey s = .next t ∧ t.err = .invalidKeyLength) ∧
  (∀ s : State, s.keyValid = true → s.inLen.toNat ≤ s.inCap.val → s.inLen.toNat = 0 ∨ s.inLen.toNat % 8 ≠ 0 →
    ∃ t, exec .dec s = .next t ∧ t.err = .invalidCiphertextLength) ∧
  (∀ (i : Instr) (s t : State), exec i s = .next t → t.err = .malformedPadding →
    i = .dec ∧ s.keyValid = true ∧ s.inLen.toNat ≤ s.inCap.val ∧ s.inLen.toNat ≠ 0 ∧ s.inLen.toNat % 8 = 0 ∧
    ∃ ct sk, s.sk = heldSchedule sk ∧ ct.length = s.inLen.toNat ∧ (∀ j, j < ct.length → s.inBuf.read j = ct[j]?) ∧
      unpad (transformBlocks ct sk false) = .error .malformedPadding)

/-- R220: in the states the core can be in, a command faults exactly when it needs a cell that holds `⊥`, and it is never
refused. -/
def Obligations.CommandsFaultOnlyOnUnwritten : Prop :=
  ∀ s : State, s.Consistent →
    (∀ i r, exec i s ≠ .refused r) ∧
    (exec .ldkey s = .fault .unwrittenRead ↔ s.inLen = 8 ∧ ∃ j, j < 8 ∧ s.inBuf.read j = none) ∧
    (exec .enc s = .fault .unwrittenRead ↔ s.keyValid = true ∧ s.inLen.toNat ≤ s.inCap.val ∧
      ∃ j, j < s.inLen.toNat ∧ s.inBuf.read j = none) ∧
    (exec .dec s = .fault .unwrittenRead ↔ s.keyValid = true ∧ s.inLen.toNat ≤ s.inCap.val ∧
      s.inLen.toNat % 8 = 0 ∧ ∃ j, j < s.inLen.toNat ∧ s.inBuf.read j = none) ∧
    (exec .encb s = .fault .unwrittenRead ↔ s.keyValid = true ∧ (s.dinHi = none ∨ s.dinLo = none)) ∧
    (exec .decb s = .fault .unwrittenRead ↔ s.keyValid = true ∧ (s.dinHi = none ∨ s.dinLo = none))

/-- A command issued again on unchanged inputs changes nothing. Of `ENC`, `DEC`, `ENCB` and `DECB` this is what `20_memory.md`
section 5 says of equal outputs; of `LDKEY` it follows from `41_key_schedule.md` section 2, and of a failing command from
`60_exceptions.md` section 2. -/
def Obligations.RepeatedCommandChangesNothing : Prop :=
  ∀ (i : Instr) (s t : State), exec i s = .next t → exec i t = .next t

/-! ### Whole-machine rules -/

/-- R128: a successful `LDKEY` replaces `KEY` and all of `SK[0..15]` in the same step, and no action but an `LDKEY` or a reset changes
them. -/
def Obligations.OnlyLdkeyAndResetChangeKey : Prop :=
  (∀ s t : State, exec .ldkey s = .next t → t.err = .none →
    ∃ k, t.key = some k ∧ t.sk = heldSchedule (keySchedule k) ∧ t.keyValid = true) ∧
  (∀ (a : HostAction) (s t : State), performAction a s = .next t → a ≠ .command (encode .ldkey) → a ≠ .reset →
    t.key = s.key ∧ t.sk = s.sk ∧ t.keyValid = s.keyValid)

/-- R23: only reset clears `KEY_VALID`. -/
def Obligations.OnlyResetClearsKeyValid : Prop :=
  ∀ s t : State, step s = .next t → s.keyValid = true → t.keyValid = false →
    ∃ rest, s.program = .reset :: rest ∧ t.program = rest

/-- R22, R24: the host cannot read `KEY` or `SK[0..15]`: what a host read returns does not depend on them. -/
def Obligations.KeyHasNoReadPath : Prop :=
  ∀ (s : State) (width off : Nat) (k : Held Block) (sk : Vector (Held Subkey) 16),
    hostRead width off { s with key := k, sk := sk } =
      match hostRead width off s with
      | .next t => .next { t with key := k, sk := sk }
      | .fault r => .fault r
      | .refused r => .refused r

/-- The model's invariant holds at reset. -/
def Obligations.ResetIsConsistent : Prop := State.reset.Consistent

/-- Every step keeps the invariant: canonical buffers, `IN` within `IN_CAP`, `OUT` holding exactly `OUT[0..OUT_LEN)` within `OUT_CAP`,
`SK` being the schedule of `KEY` when `KEY_VALID = 1` and both `⊥` when it is 0, `DOUT` written as a whole. -/
def Obligations.StepKeepsConsistent : Prop :=
  ∀ s t : State, s.Consistent → step s = .next t → t.Consistent

/-! ### The host interface -/

/-- R31: the layout of `STATUS`, in every state. -/
def Obligations.StatusLayout : Prop :=
  ∀ s : State, s.statusWord.extractLsb' 0 1 = BitVec.ofBool s.keyValid ∧ s.statusWord.extractLsb' 1 3 = 0 ∧
    s.statusWord.extractLsb' 4 4 = s.err.code ∧ s.err.code.toNat ≤ 6 ∧ s.statusWord.extractLsb' 8 24 = 0

/-- R55: what a host write changes. -/
def Obligations.HostWritesOneCell : Prop :=
  ∀ s : State,
    (∀ w, performAction (.write 32 0x0008 w) s = .next { s with inLen := w }) ∧
    (∀ w, performAction (.write 32 0x0010 w) s = .next { s with dinHi := some w }) ∧
    (∀ w, performAction (.write 32 0x0014 w) s = .next { s with dinLo := some w }) ∧
    (∀ i b, i < s.inCap.val → ∃ t, performAction (.write 8 (0x10000 + i) b) s = .next t ∧
      t = { s with inBuf := t.inBuf } ∧ t.inBuf.read i = some b ∧ ∀ j, j ≠ i → t.inBuf.read j = s.inBuf.read j)

/-- R56: a host read returns the cell's value and changes nothing but what the host has observed; a read of `⊥` is the fault
`UnwrittenRead`. -/
def Obligations.HostReadReturnsCell : Prop :=
  ∀ s : State,
    let returns : Nat → Nat → Held ReadValue → Prop := fun width off v =>
      (∀ x, v = some x → performAction (.read width off) s = .next { s with observed := s.observed ++ [x] }) ∧
      (v = none → performAction (.read width off) s = .fault .unwrittenRead)
    returns 32 0x0004 (some (.word s.statusWord)) ∧ returns 32 0x0008 (some (.word s.inLen)) ∧
    returns 32 0x000C (some (.word s.outLen)) ∧ returns 32 0x0010 (s.dinHi.map .word) ∧
    returns 32 0x0014 (s.dinLo.map .word) ∧ returns 32 0x0018 (s.doutHi.map .word) ∧
    returns 32 0x001C (s.doutLo.map .word) ∧
    (∀ i, i < s.inCap.val → returns 8 (0x10000 + i) ((s.inBuf.read i).map .byte)) ∧
    (∀ i, i < s.inCap.val + 8 → returns 8 (0x20000 + i) ((s.outBuf.read i).map .byte))

/-- R57: exactly the accesses the rule lists are refused, and a refusal ends the run as refused. -/
def Obligations.RefusedAccesses : Prop :=
  (∀ (s : State) (a : HostAction) (rest : List HostAction) (r : Refusal), s.program = a :: rest →
    performAction a { s with program := rest } = .refused r → ∀ n, Sys2Proof.core.run (n + 1) s = .refused r) ∧
  ∀ (s : State) (width off : Nat),
    ((∃ r, performAction (.read width off) s = .refused r) ↔
      ¬ ((width = 32 ∧ off ∈ [0x04, 0x08, 0x0C, 0x10, 0x14, 0x18, 0x1C]) ∨
         (width = 8 ∧ 0x10000 ≤ off ∧ off < 0x10000 + s.inCap.val) ∨
         (width = 8 ∧ 0x20000 ≤ off ∧ off < 0x20000 + (s.inCap.val + 8)))) ∧
    (∀ v : BitVec width, (∃ r, performAction (.write width off v) s = .refused r) ↔
      ¬ ((width = 32 ∧ off ∈ [0x00, 0x08, 0x10, 0x14]) ∨
         (width = 8 ∧ 0x10000 ≤ off ∧ off < 0x10000 + s.inCap.val)))

/-- R63: a read of `IN[i]` returns the value of the last write to it, whatever other actions (commands among them) were performed
in between. -/
def Obligations.ReadReturnsLastWrite : Prop :=
  ∀ (s s₁ s₂ : State) (i : Nat) (b : Byte) (between : List HostAction),
    performAction (.write 8 (0x10000 + i) b) s = .next s₁ → performActions between s₁ = .next s₂ →
    (∀ a, a ∈ between → a ≠ .reset ∧ ∀ b', a ≠ .write 8 (0x10000 + i) b') →
    performAction (.read 8 (0x10000 + i)) s₂ = .next { s₂ with observed := s₂.observed ++ [.byte b] }

/-- R66: writes to `IN`, `IN_LEN` and `DIN` are idempotent. -/
def Obligations.DataWritesAreIdempotent : Prop :=
  ∀ (s t : State) (width off : Nat) (v : BitVec width), off ≠ 0x0000 →
    performAction (.write width off v) s = .next t → performAction (.write width off v) t = .next t

/-- R96: `LOADIN` puts the bytes into `IN` and their number into `IN_LEN`, and changes nothing else. -/
def Obligations.LoadInPlacesBytes : Prop :=
  ∀ (s : State) (bs : List Byte), bs.length ≤ s.inCap.val →
    ∃ t, performActions (loadInActions bs) s = .next t ∧
      t = { s with inBuf := t.inBuf, inLen := t.inLen } ∧ t.inLen.toNat = bs.length ∧
      (∀ i, i < bs.length → t.inBuf.read i = bs[i]?) ∧ ∀ i, bs.length ≤ i → t.inBuf.read i = s.inBuf.read i

/-- R52, R96: `SETBLK` puts a block into `DIN`, bytes 0 to 3 into `DIN_HI` and bytes 4 to 7 into `DIN_LO`, the first of each in
bits 31:24. -/
def Obligations.SetBlkPlacesBlock : Prop :=
  ∀ (s : State) (v : Block), ∃ t hi lo, performActions (setBlkActions v) s = .next t ∧
    t = { s with dinHi := some hi, dinLo := some lo } ∧ hi ++ lo = v ∧
    unblk v = [hi.extractLsb' 24 8, hi.extractLsb' 16 8, hi.extractLsb' 8 8, hi.extractLsb' 0 8,
      lo.extractLsb' 24 8, lo.extractLsb' 16 8, lo.extractLsb' 8 8, lo.extractLsb' 0 8]

/-! ### The cipher -/

/-- R50: bytes pack into a block most significant first, bit order within a byte most significant first, and `unblk` is the
inverse. -/
def Obligations.BlockByteOrder : Prop :=
  (∀ v : Block, blk (unblk v) = v ∧ (unblk v).length = 8 ∧
    ∀ j, j < 8 → (unblk v)[j]? = some (v.extractLsb' (56 - 8 * j) 8)) ∧
  (∀ bs : List Byte, bs.length = 8 → unblk (blk bs) = bs ∧
    ∀ p, 1 ≤ p → p ≤ 64 → some (pos (blk bs) p) = bs[(p - 1) / 8]?.map fun b => b.getLsbD (7 - (p - 1) % 8))

/-- R108: the final permutation inverts the initial one, entry by entry and as functions. -/
def Obligations.FinalPermInvertsInitial : Prop :=
  (∀ j : Fin 64, finalPerm[initialPerm[j] - 1]? = some (j.val + 1)) ∧
  ∀ v : Block, permute finalPerm (permute initialPerm v) = v ∧ permute initialPerm (permute finalPerm v) = v

/-- R103, R121: after all sixteen rotations the key halves are back where they started. -/
def Obligations.KeyHalvesReturn : Prop :=
  ∀ cd : KeyHalf × KeyHalf, shifts.toList.foldl rotateHalves cd = cd

/-- R124: parity bits do not reach the schedule, `LDKEY` accepts a key whatever its parity, and the rule's two keys encrypt and
decrypt every block identically. -/
def Obligations.ParityIsIgnored : Prop :=
  (∀ k m : Block, m &&& 0xFEFEFEFEFEFEFEFE = 0 → keySchedule k = keySchedule (k ^^^ m)) ∧
  (∀ (s : State) (bs : List Byte), s.inLen = 8 → bs.length = 8 → (∀ i, i < 8 → s.inBuf.read i = bs[i]?) →
    ∃ t, exec .ldkey s = .next t ∧ t.err = .none ∧ t.key = some (blk bs)) ∧
  keySchedule 0x544553544B455931 = keySchedule 0x544553544B455930 ∧
  ∀ (b : Block) (forward : Bool), transform b (keySchedule 0x544553544B455931) forward =
    transform b (keySchedule 0x544553544B455930) forward

/-- R125: a key whose halves are each all zeros or all ones gives sixteen equal subkeys, and then forward and backward are the same
function. -/
def Obligations.EqualSubkeyKeys : Prop :=
  (∀ k : Block, (pc1Stage k).1 = 0x0000000 ∨ (pc1Stage k).1 = 0xFFFFFFF →
    (pc1Stage k).2 = 0x0000000 ∨ (pc1Stage k).2 = 0xFFFFFFF →
    (∀ i j : Fin 16, (keySchedule k)[i] = (keySchedule k)[j]) ∧
    ∀ b, transform b (keySchedule k) true = transform b (keySchedule k) false) ∧
  (∀ i : Fin 16, (keySchedule 0x0101010101010101)[i] = 0 ∧ (keySchedule 0xFEFEFEFEFEFEFEFE)[i] = 0xFFFFFFFFFFFF ∧
    (keySchedule 0x1F1F1F1F0E0E0E0E)[i] = 0x000000FFFFFF)

/-- R147: a round is inverted by the same round function. -/
def Obligations.RoundIsInvertedByItself : Prop :=
  ∀ (l r : Half) (k : Subkey),
    let lr' := feistelRound (l, r) k
    r = lr'.1 ∧ l = lr'.2 ^^^ roundF lr'.1 k ∧ (feistelRound lr'.swap k).swap = (l, r)

/-- R168: each direction of the transform undoes the other, for every block and every schedule. -/
def Obligations.TransformInverse : Prop :=
  ∀ (b : Block) (sk : Schedule),
    transform (transform b sk true) sk false = b ∧ transform (transform b sk false) sk true = b

/-- R169: complementing the key and the block complements the result. -/
def Obligations.ComplementationLaw : Prop :=
  (∀ (k b : Block), transform (~~~b) (keySchedule (~~~k)) true = ~~~(transform b (keySchedule k) true)) ∧
  (∀ (k : Block) (i : Fin 16), (keySchedule (~~~k))[i] = ~~~(keySchedule k)[i]) ∧
  (∀ (r : Half) (k : Subkey), roundF (~~~r) (~~~k) = roundF r k) ∧
  transform 0xFEDCBA9876543210 (keySchedule 0xECCBA8866443200E) true = 0x7A17ECABF0F54BFA ∧
  ~~~(0x85E813540F0AB405 : Block) = 0x7A17ECABF0F54BFA

/-! ### The framing -/

/-- R180: padding, with the rule's corner cases and examples. -/
def Obligations.PadAppendsCount : Prop :=
  (∀ p : List Byte, ∃ n, 1 ≤ n ∧ n ≤ 8 ∧ n = 8 - p.length % 8 ∧ pad p = p ++ List.replicate n (BitVec.ofNat 8 n) ∧
    (pad p).length = 8 * (p.length / 8 + 1) ∧ (p.length % 8 = 0 → n = 8) ∧ (p.length % 8 = 7 → n = 1)) ∧
  pad [0x41] = [0x41, 0x07, 0x07, 0x07, 0x07, 0x07, 0x07, 0x07] ∧
  pad [] = [0x08, 0x08, 0x08, 0x08, 0x08, 0x08, 0x08, 0x08] ∧
  pad [0x48, 0x65, 0x6C, 0x6C, 0x6F, 0x31, 0x32, 0x33] =
    [0x48, 0x65, 0x6C, 0x6C, 0x6F, 0x31, 0x32, 0x33, 0x08, 0x08, 0x08, 0x08, 0x08, 0x08, 0x08, 0x08]

/-- R182: unpadding accepts exactly the padded sequences: it answers `p` exactly when its input is `PAD(p)`, and otherwise fails
with `MalformedPadding`. -/
def Obligations.UnpadAcceptsExactlyPadded : Prop :=
  ∀ q : List Byte, q ≠ [] → q.length % 8 = 0 →
    (∀ p, unpad q = .ok p ↔ q = pad p) ∧ (∀ e, unpad q = .error e ↔ e = .malformedPadding ∧ ∀ p, q ≠ pad p)

/-- R181: splitting and joining. -/
def Obligations.SplitAndJoin : Prop :=
  (∀ q : List Byte, q.length % 8 = 0 →
    (splitBlocks q).length = q.length / 8 ∧
    (∀ j, j < q.length / 8 → (splitBlocks q)[j]? = some (blk ((q.drop (8 * j)).take 8))) ∧
    joinBlocks (splitBlocks q) = q) ∧
  (∀ vs : List Block, joinBlocks vs = vs.flatMap unblk)

/-- R189: the length of a ciphertext. -/
def Obligations.CiphertextLength : Prop :=
  ∀ (p : List Byte) (sk : Schedule), (encryptPayload p sk).length % 8 = 0 ∧ 8 ≤ (encryptPayload p sk).length

/-- R190: ciphertext block `j` depends only on padded-plaintext block `j` and on the schedule, so equal blocks give equal
blocks. -/
def Obligations.BlocksAreIndependent : Prop :=
  ∀ (p : List Byte) (sk : Schedule) (j : Nat), j < (pad p).length / 8 →
    ((encryptPayload p sk).drop (8 * j)).take 8 =
      unblk (transform (blk (((pad p).drop (8 * j)).take 8)) sk true) ∧
    ∀ (p' : List Byte) (j' : Nat), j' < (pad p').length / 8 →
      ((pad p).drop (8 * j)).take 8 = ((pad p').drop (8 * j')).take 8 →
      ((encryptPayload p sk).drop (8 * j)).take 8 = ((encryptPayload p' sk).drop (8 * j')).take 8

/-- R188: the round trip, of the functions and at the command level from every state the core can be left in. -/
def Obligations.RoundTrip : Prop :=
  (∀ (p : List Byte) (k : Block),
    decryptPayload (encryptPayload p (keySchedule k)) (keySchedule k) = .ok p) ∧
  (∀ (s : State) (kb p : List Byte), kb.length = 8 → p.length + 8 ≤ s.inCap.val →
    ∃ t ct u,
      performActions (loadInActions kb ++ [.command (encode .ldkey)] ++ loadInActions p ++ [.command (encode .enc)]) s =
        .next t ∧
      t.err = .none ∧ t.outLen.toNat = ct.length ∧ (∀ i, t.outBuf.read i = ct[i]?) ∧
      performActions (loadInActions ct ++ [.command (encode .dec)]) t = .next u ∧
      u.err = .none ∧ u.outLen.toNat = p.length ∧ ∀ i, u.outBuf.read i = p[i]?)
end

