-- ==== Sys2Proof/Laws/Bits.lean ====
section
/-!
SUPPORT. The laws of the bit primitives: which bit of the input each bit of a permutation's result is.
-/

namespace Sys2Proof.Machine

theorem packBits_lt (bs : List Bool) : packBits bs < 2 ^ bs.length := by
  induction bs with
  | nil => simp [packBits]
  | cons b bs ih =>
    have hb : b.toNat ≤ 1 := Bool.toNat_le b
    have : b.toNat * 2 ^ bs.length ≤ 1 * 2 ^ bs.length := Nat.mul_le_mul_right _ hb
    simp only [packBits, List.length_cons, pow_succ]
    omega

/-- Binary digit `j` of a packed list, counted from the most significant, is the list's entry `j`. -/
theorem packBits_testBit (bs : List Bool) (j : Nat) (h : j < bs.length) :
    (packBits bs).testBit (bs.length - 1 - j) = bs[j] := by
  induction bs generalizing j with
  | nil => simp at h
  | cons b bs ih =>
    have hlt := packBits_lt bs
    rw [packBits, Nat.mul_comm]
    cases j with
    | zero =>
      have hi : (b :: bs).length - 1 - 0 = bs.length := by simp
      rw [hi, Nat.testBit_two_pow_mul_add _ hlt, if_neg (lt_irrefl _)]
      cases b <;> simp
    | succ j =>
      simp only [List.length_cons, Nat.add_lt_add_iff_right] at h
      have hi : (b :: bs).length - 1 - (j + 1) = bs.length - 1 - j := by simp; omega
      rw [hi, Nat.testBit_two_pow_mul_add _ hlt, if_pos (by omega), ih j h, List.getElem_cons_succ]

/-- R14: position `j` of a permutation's result (here `j` counts from 0) is the position of the input that the table
names. -/
theorem permute_pos {m n : Nat} (T : Vector Nat m) (v : BitVec n) (j : Nat) (h : j < m) :
    pos (permute T v) (j + 1) = pos v T[j] := by
  have hl : (T.toList.map (pos v)).length = m := by simp
  have hj : j < (T.toList.map (pos v)).length := by rw [hl]; exact h
  have hb := packBits_testBit (T.toList.map (pos v)) j hj
  rw [hl] at hb
  have hm : m - (j + 1) = m - 1 - j := by omega
  have hm' : m - 1 - j < m := by omega
  rw [pos, permute, hm, BitVec.getLsbD_ofNat, hb]
  simp [hm']

/-- Bit `i` of a permutation's result. -/
theorem permute_getLsbD {m n : Nat} (T : Vector Nat m) (v : BitVec n) (i : Nat) (h : i < m) :
    (permute T v).getLsbD i = v.getLsbD (n - T[m - 1 - i]) := by
  have := permute_pos T v (m - 1 - i) (by omega)
  have hi : m - (m - 1 - i + 1) = i := by omega
  rw [pos, hi] at this
  rw [this, pos]

/-- R15: the rotation primitive is rotation to the left. -/
theorem rotl28_eq_rotateLeft (x : KeyHalf) (s : Nat) (h : s < 28) : rotl28 x s = x.rotateLeft s := by
  simp [rotl28, BitVec.rotateLeft_def, Nat.mod_eq_of_lt h]

/-- `permute` commutes with XOR. -/
theorem permute_xor {m n : Nat} (T : Vector Nat m) (v w : BitVec n) : permute T (v ^^^ w) = permute T v ^^^ permute T w := by
  apply BitVec.eq_of_getLsbD_eq
  intro i hi
  simp [permute_getLsbD _ _ _ hi]

@[simp] theorem pc1Stage_fst (k : Block) : (pc1Stage k).1 = (permute pc1 k).extractLsb' 28 28 := rfl

@[simp] theorem pc1Stage_snd (k : Block) : (pc1Stage k).2 = (permute pc1 k).extractLsb' 0 28 := rfl

/-- The list of a key's subkeys. -/
theorem keySchedule_toList (k : Block) : (keySchedule k).toList = subkeysFrom (pc1Stage k) shifts.toList := by
  simp [keySchedule, Vector.toList]

/-- R161: the subkey of round `i + 1` is `SK[i]` forward and `SK[15 - i]` backward. -/
theorem subkeyOrder_getElem (sk : Schedule) (forward : Bool) (i : Nat) (h : i < 16) :
    (subkeyOrder sk forward)[i]? = some (if forward then sk[i] else sk[15 - i]) := by
  cases forward
  · simp [subkeyOrder, h]
  · simp [subkeyOrder, h]

end Sys2Proof.Machine
end

