-- ==== Sys2Proof/Laws/State.lean ====
section
/-!
SUPPORT. What each state update makes of each field, one lemma per field per update.
-/

namespace Sys2Proof.Machine

variable (s : State)

/-! `setErr` -/

@[simp] theorem setErr_inCap (e : ErrCode) : (s.setErr e).inCap = s.inCap := rfl
@[simp] theorem setErr_key (e : ErrCode) : (s.setErr e).key = s.key := rfl
@[simp] theorem setErr_keyValid (e : ErrCode) : (s.setErr e).keyValid = s.keyValid := rfl
@[simp] theorem setErr_sk (e : ErrCode) : (s.setErr e).sk = s.sk := rfl
@[simp] theorem setErr_dinHi (e : ErrCode) : (s.setErr e).dinHi = s.dinHi := rfl
@[simp] theorem setErr_dinLo (e : ErrCode) : (s.setErr e).dinLo = s.dinLo := rfl
@[simp] theorem setErr_doutHi (e : ErrCode) : (s.setErr e).doutHi = s.doutHi := rfl
@[simp] theorem setErr_doutLo (e : ErrCode) : (s.setErr e).doutLo = s.doutLo := rfl
@[simp] theorem setErr_inBuf (e : ErrCode) : (s.setErr e).inBuf = s.inBuf := rfl
@[simp] theorem setErr_inLen (e : ErrCode) : (s.setErr e).inLen = s.inLen := rfl
@[simp] theorem setErr_outBuf (e : ErrCode) : (s.setErr e).outBuf = s.outBuf := rfl
@[simp] theorem setErr_outLen (e : ErrCode) : (s.setErr e).outLen = s.outLen := rfl
@[simp] theorem setErr_err (e : ErrCode) : (s.setErr e).err = e := rfl
@[simp] theorem setErr_program (e : ErrCode) : (s.setErr e).program = s.program := rfl
@[simp] theorem setErr_observed (e : ErrCode) : (s.setErr e).observed = s.observed := rfl

/-! `loadKey` -/

@[simp] theorem loadKey_inCap (k : Block) (ks : Schedule) : (s.loadKey k ks).inCap = s.inCap := rfl
@[simp] theorem loadKey_key (k : Block) (ks : Schedule) : (s.loadKey k ks).key = some k := rfl
@[simp] theorem loadKey_keyValid (k : Block) (ks : Schedule) : (s.loadKey k ks).keyValid = true := rfl
@[simp] theorem loadKey_sk (k : Block) (ks : Schedule) : (s.loadKey k ks).sk = ⟨(ks.toList.map some).toArray, by simp⟩ := rfl
@[simp] theorem loadKey_dinHi (k : Block) (ks : Schedule) : (s.loadKey k ks).dinHi = s.dinHi := rfl
@[simp] theorem loadKey_dinLo (k : Block) (ks : Schedule) : (s.loadKey k ks).dinLo = s.dinLo := rfl
@[simp] theorem loadKey_doutHi (k : Block) (ks : Schedule) : (s.loadKey k ks).doutHi = s.doutHi := rfl
@[simp] theorem loadKey_doutLo (k : Block) (ks : Schedule) : (s.loadKey k ks).doutLo = s.doutLo := rfl
@[simp] theorem loadKey_inBuf (k : Block) (ks : Schedule) : (s.loadKey k ks).inBuf = s.inBuf := rfl
@[simp] theorem loadKey_inLen (k : Block) (ks : Schedule) : (s.loadKey k ks).inLen = s.inLen := rfl
@[simp] theorem loadKey_outBuf (k : Block) (ks : Schedule) : (s.loadKey k ks).outBuf = s.outBuf := rfl
@[simp] theorem loadKey_outLen (k : Block) (ks : Schedule) : (s.loadKey k ks).outLen = s.outLen := rfl
@[simp] theorem loadKey_err (k : Block) (ks : Schedule) : (s.loadKey k ks).err = s.err := rfl
@[simp] theorem loadKey_program (k : Block) (ks : Schedule) : (s.loadKey k ks).program = s.program := rfl
@[simp] theorem loadKey_observed (k : Block) (ks : Schedule) : (s.loadKey k ks).observed = s.observed := rfl

/-! `setOut` -/

@[simp] theorem setOut_inCap (c : List Byte) : (s.setOut c).inCap = s.inCap := rfl
@[simp] theorem setOut_key (c : List Byte) : (s.setOut c).key = s.key := rfl
@[simp] theorem setOut_keyValid (c : List Byte) : (s.setOut c).keyValid = s.keyValid := rfl
@[simp] theorem setOut_sk (c : List Byte) : (s.setOut c).sk = s.sk := rfl
@[simp] theorem setOut_dinHi (c : List Byte) : (s.setOut c).dinHi = s.dinHi := rfl
@[simp] theorem setOut_dinLo (c : List Byte) : (s.setOut c).dinLo = s.dinLo := rfl
@[simp] theorem setOut_doutHi (c : List Byte) : (s.setOut c).doutHi = s.doutHi := rfl
@[simp] theorem setOut_doutLo (c : List Byte) : (s.setOut c).doutLo = s.doutLo := rfl
@[simp] theorem setOut_inBuf (c : List Byte) : (s.setOut c).inBuf = s.inBuf := rfl
@[simp] theorem setOut_inLen (c : List Byte) : (s.setOut c).inLen = s.inLen := rfl
@[simp] theorem setOut_outBuf (c : List Byte) : (s.setOut c).outBuf = Memory.ofBytes 0 c := rfl
@[simp] theorem setOut_outLen (c : List Byte) : (s.setOut c).outLen = BitVec.ofNat 32 c.length := rfl
@[simp] theorem setOut_err (c : List Byte) : (s.setOut c).err = s.err := rfl
@[simp] theorem setOut_program (c : List Byte) : (s.setOut c).program = s.program := rfl
@[simp] theorem setOut_observed (c : List Byte) : (s.setOut c).observed = s.observed := rfl

/-! `invalidateOut` -/

@[simp] theorem invalidateOut_inCap : (s.invalidateOut).inCap = s.inCap := rfl
@[simp] theorem invalidateOut_key : (s.invalidateOut).key = s.key := rfl
@[simp] theorem invalidateOut_keyValid : (s.invalidateOut).keyValid = s.keyValid := rfl
@[simp] theorem invalidateOut_sk : (s.invalidateOut).sk = s.sk := rfl
@[simp] theorem invalidateOut_dinHi : (s.invalidateOut).dinHi = s.dinHi := rfl
@[simp] theorem invalidateOut_dinLo : (s.invalidateOut).dinLo = s.dinLo := rfl
@[simp] theorem invalidateOut_doutHi : (s.invalidateOut).doutHi = s.doutHi := rfl
@[simp] theorem invalidateOut_doutLo : (s.invalidateOut).doutLo = s.doutLo := rfl
@[simp] theorem invalidateOut_inBuf : (s.invalidateOut).inBuf = s.inBuf := rfl
@[simp] theorem invalidateOut_inLen : (s.invalidateOut).inLen = s.inLen := rfl
@[simp] theorem invalidateOut_outBuf : (s.invalidateOut).outBuf = [] := rfl
@[simp] theorem invalidateOut_outLen : (s.invalidateOut).outLen = 0 := rfl
@[simp] theorem invalidateOut_err : (s.invalidateOut).err = s.err := rfl
@[simp] theorem invalidateOut_program : (s.invalidateOut).program = s.program := rfl
@[simp] theorem invalidateOut_observed : (s.invalidateOut).observed = s.observed := rfl

/-! `setDout` -/

@[simp] theorem setDout_inCap (v : Block) : (s.setDout v).inCap = s.inCap := rfl
@[simp] theorem setDout_key (v : Block) : (s.setDout v).key = s.key := rfl
@[simp] theorem setDout_keyValid (v : Block) : (s.setDout v).keyValid = s.keyValid := rfl
@[simp] theorem setDout_sk (v : Block) : (s.setDout v).sk = s.sk := rfl
@[simp] theorem setDout_dinHi (v : Block) : (s.setDout v).dinHi = s.dinHi := rfl
@[simp] theorem setDout_dinLo (v : Block) : (s.setDout v).dinLo = s.dinLo := rfl
@[simp] theorem setDout_doutHi (v : Block) : (s.setDout v).doutHi = some (v.extractLsb' 32 32) := rfl
@[simp] theorem setDout_doutLo (v : Block) : (s.setDout v).doutLo = some (v.extractLsb' 0 32) := rfl
@[simp] theorem setDout_inBuf (v : Block) : (s.setDout v).inBuf = s.inBuf := rfl
@[simp] theorem setDout_inLen (v : Block) : (s.setDout v).inLen = s.inLen := rfl
@[simp] theorem setDout_outBuf (v : Block) : (s.setDout v).outBuf = s.outBuf := rfl
@[simp] theorem setDout_outLen (v : Block) : (s.setDout v).outLen = s.outLen := rfl
@[simp] theorem setDout_err (v : Block) : (s.setDout v).err = s.err := rfl
@[simp] theorem setDout_program (v : Block) : (s.setDout v).program = s.program := rfl
@[simp] theorem setDout_observed (v : Block) : (s.setDout v).observed = s.observed := rfl

/-! `invalidateDout` -/

@[simp] theorem invalidateDout_inCap : (s.invalidateDout).inCap = s.inCap := rfl
@[simp] theorem invalidateDout_key : (s.invalidateDout).key = s.key := rfl
@[simp] theorem invalidateDout_keyValid : (s.invalidateDout).keyValid = s.keyValid := rfl
@[simp] theorem invalidateDout_sk : (s.invalidateDout).sk = s.sk := rfl
@[simp] theorem invalidateDout_dinHi : (s.invalidateDout).dinHi = s.dinHi := rfl
@[simp] theorem invalidateDout_dinLo : (s.invalidateDout).dinLo = s.dinLo := rfl
@[simp] theorem invalidateDout_doutHi : (s.invalidateDout).doutHi = none := rfl
@[simp] theorem invalidateDout_doutLo : (s.invalidateDout).doutLo = none := rfl
@[simp] theorem invalidateDout_inBuf : (s.invalidateDout).inBuf = s.inBuf := rfl
@[simp] theorem invalidateDout_inLen : (s.invalidateDout).inLen = s.inLen := rfl
@[simp] theorem invalidateDout_outBuf : (s.invalidateDout).outBuf = s.outBuf := rfl
@[simp] theorem invalidateDout_outLen : (s.invalidateDout).outLen = s.outLen := rfl
@[simp] theorem invalidateDout_err : (s.invalidateDout).err = s.err := rfl
@[simp] theorem invalidateDout_program : (s.invalidateDout).program = s.program := rfl
@[simp] theorem invalidateDout_observed : (s.invalidateDout).observed = s.observed := rfl

/-! `writeIn` -/

@[simp] theorem writeIn_inCap (i : Nat) (b : Byte) : (s.writeIn i b).inCap = s.inCap := rfl
@[simp] theorem writeIn_key (i : Nat) (b : Byte) : (s.writeIn i b).key = s.key := rfl
@[simp] theorem writeIn_keyValid (i : Nat) (b : Byte) : (s.writeIn i b).keyValid = s.keyValid := rfl
@[simp] theorem writeIn_sk (i : Nat) (b : Byte) : (s.writeIn i b).sk = s.sk := rfl
@[simp] theorem writeIn_dinHi (i : Nat) (b : Byte) : (s.writeIn i b).dinHi = s.dinHi := rfl
@[simp] theorem writeIn_dinLo (i : Nat) (b : Byte) : (s.writeIn i b).dinLo = s.dinLo := rfl
@[simp] theorem writeIn_doutHi (i : Nat) (b : Byte) : (s.writeIn i b).doutHi = s.doutHi := rfl
@[simp] theorem writeIn_doutLo (i : Nat) (b : Byte) : (s.writeIn i b).doutLo = s.doutLo := rfl
@[simp] theorem writeIn_inBuf (i : Nat) (b : Byte) : (s.writeIn i b).inBuf = s.inBuf.write i b := rfl
@[simp] theorem writeIn_inLen (i : Nat) (b : Byte) : (s.writeIn i b).inLen = s.inLen := rfl
@[simp] theorem writeIn_outBuf (i : Nat) (b : Byte) : (s.writeIn i b).outBuf = s.outBuf := rfl
@[simp] theorem writeIn_outLen (i : Nat) (b : Byte) : (s.writeIn i b).outLen = s.outLen := rfl
@[simp] theorem writeIn_err (i : Nat) (b : Byte) : (s.writeIn i b).err = s.err := rfl
@[simp] theorem writeIn_program (i : Nat) (b : Byte) : (s.writeIn i b).program = s.program := rfl
@[simp] theorem writeIn_observed (i : Nat) (b : Byte) : (s.writeIn i b).observed = s.observed := rfl

/-! `setInLen` -/

@[simp] theorem setInLen_inCap (w : Word) : (s.setInLen w).inCap = s.inCap := rfl
@[simp] theorem setInLen_key (w : Word) : (s.setInLen w).key = s.key := rfl
@[simp] theorem setInLen_keyValid (w : Word) : (s.setInLen w).keyValid = s.keyValid := rfl
@[simp] theorem setInLen_sk (w : Word) : (s.setInLen w).sk = s.sk := rfl
@[simp] theorem setInLen_dinHi (w : Word) : (s.setInLen w).dinHi = s.dinHi := rfl
@[simp] theorem setInLen_dinLo (w : Word) : (s.setInLen w).dinLo = s.dinLo := rfl
@[simp] theorem setInLen_doutHi (w : Word) : (s.setInLen w).doutHi = s.doutHi := rfl
@[simp] theorem setInLen_doutLo (w : Word) : (s.setInLen w).doutLo = s.doutLo := rfl
@[simp] theorem setInLen_inBuf (w : Word) : (s.setInLen w).inBuf = s.inBuf := rfl
@[simp] theorem setInLen_inLen (w : Word) : (s.setInLen w).inLen = w := rfl
@[simp] theorem setInLen_outBuf (w : Word) : (s.setInLen w).outBuf = s.outBuf := rfl
@[simp] theorem setInLen_outLen (w : Word) : (s.setInLen w).outLen = s.outLen := rfl
@[simp] theorem setInLen_err (w : Word) : (s.setInLen w).err = s.err := rfl
@[simp] theorem setInLen_program (w : Word) : (s.setInLen w).program = s.program := rfl
@[simp] theorem setInLen_observed (w : Word) : (s.setInLen w).observed = s.observed := rfl

/-! `setDinHi` -/

@[simp] theorem setDinHi_inCap (w : Word) : (s.setDinHi w).inCap = s.inCap := rfl
@[simp] theorem setDinHi_key (w : Word) : (s.setDinHi w).key = s.key := rfl
@[simp] theorem setDinHi_keyValid (w : Word) : (s.setDinHi w).keyValid = s.keyValid := rfl
@[simp] theorem setDinHi_sk (w : Word) : (s.setDinHi w).sk = s.sk := rfl
@[simp] theorem setDinHi_dinHi (w : Word) : (s.setDinHi w).dinHi = some w := rfl
@[simp] theorem setDinHi_dinLo (w : Word) : (s.setDinHi w).dinLo = s.dinLo := rfl
@[simp] theorem setDinHi_doutHi (w : Word) : (s.setDinHi w).doutHi = s.doutHi := rfl
@[simp] theorem setDinHi_doutLo (w : Word) : (s.setDinHi w).doutLo = s.doutLo := rfl
@[simp] theorem setDinHi_inBuf (w : Word) : (s.setDinHi w).inBuf = s.inBuf := rfl
@[simp] theorem setDinHi_inLen (w : Word) : (s.setDinHi w).inLen = s.inLen := rfl
@[simp] theorem setDinHi_outBuf (w : Word) : (s.setDinHi w).outBuf = s.outBuf := rfl
@[simp] theorem setDinHi_outLen (w : Word) : (s.setDinHi w).outLen = s.outLen := rfl
@[simp] theorem setDinHi_err (w : Word) : (s.setDinHi w).err = s.err := rfl
@[simp] theorem setDinHi_program (w : Word) : (s.setDinHi w).program = s.program := rfl
@[simp] theorem setDinHi_observed (w : Word) : (s.setDinHi w).observed = s.observed := rfl

/-! `setDinLo` -/

@[simp] theorem setDinLo_inCap (w : Word) : (s.setDinLo w).inCap = s.inCap := rfl
@[simp] theorem setDinLo_key (w : Word) : (s.setDinLo w).key = s.key := rfl
@[simp] theorem setDinLo_keyValid (w : Word) : (s.setDinLo w).keyValid = s.keyValid := rfl
@[simp] theorem setDinLo_sk (w : Word) : (s.setDinLo w).sk = s.sk := rfl
@[simp] theorem setDinLo_dinHi (w : Word) : (s.setDinLo w).dinHi = s.dinHi := rfl
@[simp] theorem setDinLo_dinLo (w : Word) : (s.setDinLo w).dinLo = some w := rfl
@[simp] theorem setDinLo_doutHi (w : Word) : (s.setDinLo w).doutHi = s.doutHi := rfl
@[simp] theorem setDinLo_doutLo (w : Word) : (s.setDinLo w).doutLo = s.doutLo := rfl
@[simp] theorem setDinLo_inBuf (w : Word) : (s.setDinLo w).inBuf = s.inBuf := rfl
@[simp] theorem setDinLo_inLen (w : Word) : (s.setDinLo w).inLen = s.inLen := rfl
@[simp] theorem setDinLo_outBuf (w : Word) : (s.setDinLo w).outBuf = s.outBuf := rfl
@[simp] theorem setDinLo_outLen (w : Word) : (s.setDinLo w).outLen = s.outLen := rfl
@[simp] theorem setDinLo_err (w : Word) : (s.setDinLo w).err = s.err := rfl
@[simp] theorem setDinLo_program (w : Word) : (s.setDinLo w).program = s.program := rfl
@[simp] theorem setDinLo_observed (w : Word) : (s.setDinLo w).observed = s.observed := rfl

/-! `observe` -/

@[simp] theorem observe_inCap (v : ReadValue) : (s.observe v).inCap = s.inCap := rfl
@[simp] theorem observe_key (v : ReadValue) : (s.observe v).key = s.key := rfl
@[simp] theorem observe_keyValid (v : ReadValue) : (s.observe v).keyValid = s.keyValid := rfl
@[simp] theorem observe_sk (v : ReadValue) : (s.observe v).sk = s.sk := rfl
@[simp] theorem observe_dinHi (v : ReadValue) : (s.observe v).dinHi = s.dinHi := rfl
@[simp] theorem observe_dinLo (v : ReadValue) : (s.observe v).dinLo = s.dinLo := rfl
@[simp] theorem observe_doutHi (v : ReadValue) : (s.observe v).doutHi = s.doutHi := rfl
@[simp] theorem observe_doutLo (v : ReadValue) : (s.observe v).doutLo = s.doutLo := rfl
@[simp] theorem observe_inBuf (v : ReadValue) : (s.observe v).inBuf = s.inBuf := rfl
@[simp] theorem observe_inLen (v : ReadValue) : (s.observe v).inLen = s.inLen := rfl
@[simp] theorem observe_outBuf (v : ReadValue) : (s.observe v).outBuf = s.outBuf := rfl
@[simp] theorem observe_outLen (v : ReadValue) : (s.observe v).outLen = s.outLen := rfl
@[simp] theorem observe_err (v : ReadValue) : (s.observe v).err = s.err := rfl
@[simp] theorem observe_program (v : ReadValue) : (s.observe v).program = s.program := rfl
@[simp] theorem observe_observed (v : ReadValue) : (s.observe v).observed = s.observed ++ [v] := rfl

/-! `setProgram` -/

@[simp] theorem setProgram_inCap (p : List HostAction) : (s.setProgram p).inCap = s.inCap := rfl
@[simp] theorem setProgram_key (p : List HostAction) : (s.setProgram p).key = s.key := rfl
@[simp] theorem setProgram_keyValid (p : List HostAction) : (s.setProgram p).keyValid = s.keyValid := rfl
@[simp] theorem setProgram_sk (p : List HostAction) : (s.setProgram p).sk = s.sk := rfl
@[simp] theorem setProgram_dinHi (p : List HostAction) : (s.setProgram p).dinHi = s.dinHi := rfl
@[simp] theorem setProgram_dinLo (p : List HostAction) : (s.setProgram p).dinLo = s.dinLo := rfl
@[simp] theorem setProgram_doutHi (p : List HostAction) : (s.setProgram p).doutHi = s.doutHi := rfl
@[simp] theorem setProgram_doutLo (p : List HostAction) : (s.setProgram p).doutLo = s.doutLo := rfl
@[simp] theorem setProgram_inBuf (p : List HostAction) : (s.setProgram p).inBuf = s.inBuf := rfl
@[simp] theorem setProgram_inLen (p : List HostAction) : (s.setProgram p).inLen = s.inLen := rfl
@[simp] theorem setProgram_outBuf (p : List HostAction) : (s.setProgram p).outBuf = s.outBuf := rfl
@[simp] theorem setProgram_outLen (p : List HostAction) : (s.setProgram p).outLen = s.outLen := rfl
@[simp] theorem setProgram_err (p : List HostAction) : (s.setProgram p).err = s.err := rfl
@[simp] theorem setProgram_program (p : List HostAction) : (s.setProgram p).program = p := rfl
@[simp] theorem setProgram_observed (p : List HostAction) : (s.setProgram p).observed = s.observed := rfl

/-! `resetCore` -/

@[simp] theorem resetCore_inCap : (s.resetCore).inCap = s.inCap := rfl
@[simp] theorem resetCore_key : (s.resetCore).key = none := rfl
@[simp] theorem resetCore_keyValid : (s.resetCore).keyValid = false := rfl
@[simp] theorem resetCore_sk : (s.resetCore).sk = Vector.replicate 16 none := rfl
@[simp] theorem resetCore_dinHi : (s.resetCore).dinHi = none := rfl
@[simp] theorem resetCore_dinLo : (s.resetCore).dinLo = none := rfl
@[simp] theorem resetCore_doutHi : (s.resetCore).doutHi = none := rfl
@[simp] theorem resetCore_doutLo : (s.resetCore).doutLo = none := rfl
@[simp] theorem resetCore_inBuf : (s.resetCore).inBuf = [] := rfl
@[simp] theorem resetCore_inLen : (s.resetCore).inLen = 0 := rfl
@[simp] theorem resetCore_outBuf : (s.resetCore).outBuf = [] := rfl
@[simp] theorem resetCore_outLen : (s.resetCore).outLen = 0 := rfl
@[simp] theorem resetCore_err : (s.resetCore).err = ErrCode.none := rfl
@[simp] theorem resetCore_program : (s.resetCore).program = s.program := rfl
@[simp] theorem resetCore_observed : (s.resetCore).observed = s.observed := rfl

end Sys2Proof.Machine
end

