-- ==== Sys2Proof/Laws/Commands.lean ====
section
/-!
SUPPORT. Everything the shared operations and the commands can do: one equation or inversion lemma each, which later proofs cite instead of
unfolding a meaning.
-/

namespace Sys2Proof.Machine

/-- R214: the outputs a failing command invalidates. -/
theorem raiseError_eq (c : Option Instr) (e : ErrCode) (s : State) : raiseError c e s = .next
    (match c with
     | some .enc | some .dec => (s.setErr e).invalidateOut
     | some .encb | some .decb => (s.setErr e).invalidateDout
     | some .ldkey | none => s.setErr e) := by
  unfold raiseError
  split <;> rfl

/-- The operand of the block commands is there exactly when both halves of `DIN` are. -/
theorem blockOperand_eq_some {s : State} {b : Block} :
    s.blockOperand = some b ↔ ∃ hi lo, s.dinHi = some hi ∧ s.dinLo = some lo ∧ b = hi ++ lo := by
  unfold State.blockOperand
  cases s.dinHi <;> cases s.dinLo <;> simp [eq_comm]

/-- With a whole schedule in `SK`, the commands read that schedule. -/
theorem scheduleOperand_of_held {s : State} {sk : Schedule} (h : s.sk = heldSchedule sk) :
    s.scheduleOperand = some sk := by
  have hl : s.sk.toList = sk.toList.map some := by rw [h]; simp [heldSchedule, Vector.toList]
  have hall : s.sk.toList.all Option.isSome = true := by rw [hl]; simp
  rw [State.scheduleOperand, if_pos hall]
  congr 1
  apply Vector.toArray_inj.mp
  apply Array.toList_inj.mp
  show s.sk.toList.map (·.getD 0) = sk.toList
  rw [hl, List.map_map]
  exact (List.map_congr_left fun _ _ => rfl).trans (List.map_id _)

/-- A schedule that is read is the one `SK` holds. -/
theorem held_of_scheduleOperand {s : State} {sk : Schedule} (h : s.scheduleOperand = some sk) :
    s.sk = heldSchedule sk := by
  unfold State.scheduleOperand at h
  split_ifs at h with hall
  cases h
  apply Vector.toArray_inj.mp
  apply Array.toList_inj.mp
  show s.sk.toList = (s.sk.toList.map (·.getD 0)).map some
  rw [List.map_map]
  refine ((List.map_congr_left fun x hx => ?_).trans (List.map_id _)).symm
  obtain ⟨y, rfl⟩ := Option.isSome_iff_exists.mp (List.all_eq_true.mp hall x hx)
  rfl

/-- What `LDKEY` can do. -/
theorem execLdkey_cases {s t : State} (h : execLdkey s = .next t) :
    (s.inLen ≠ 8 ∧ t = s.setErr .invalidKeyLength) ∨
    (s.inLen = 8 ∧ ∃ bs, s.keyOperand = some bs ∧
      t = (s.loadKey (blk bs) (keySchedule (blk bs))).setErr .none) := by
  unfold execLdkey at h
  split_ifs at h with hl
  · rw [raiseError_eq] at h
    exact .inl ⟨hl, by simpa using h.symm⟩
  · cases hk : s.keyOperand with
    | none => simp [hk] at h
    | some bs => exact .inr ⟨by simpa using hl, bs, rfl, by simpa [hk] using h.symm⟩

/-- What `ENCB` and `DECB` can do. -/
theorem runBlock_cases {c : Instr} {f : Bool} {s t : State} (hc : c = .encb ∨ c = .decb)
    (h : runBlock c f s = .next t) :
    (s.keyValid = false ∧ t = (s.setErr .noKey).invalidateDout) ∨
    (s.keyValid = true ∧ ∃ b sk, s.blockOperand = some b ∧ s.scheduleOperand = some sk ∧
      t = (s.setDout (transform b sk f)).setErr .none) := by
  unfold runBlock at h
  split_ifs at h with hv
  · rw [raiseError_eq] at h
    refine .inl ⟨hv, ?_⟩
    rcases hc with rfl | rfl <;> simpa using h.symm
  · cases hb : s.blockOperand with
    | none => simp [hb] at h
    | some b =>
      cases hs : s.scheduleOperand with
      | none => simp [hb, hs] at h
      | some sk => exact .inr ⟨by simpa using hv, b, sk, rfl, rfl, by simpa [hb, hs] using h.symm⟩

/-- What `ENC` can do. -/
theorem execEnc_cases {s t : State} (h : execEnc s = .next t) :
    (s.keyValid = false ∧ t = (s.setErr .noKey).invalidateOut) ∨
    (s.keyValid = true ∧ s.inCap.val < s.inLen.toNat ∧ t = (s.setErr .capacityExceeded).invalidateOut) ∨
    (s.keyValid = true ∧ s.inLen.toNat ≤ s.inCap.val ∧ ∃ p sk, s.payloadOperand = some p ∧
      s.scheduleOperand = some sk ∧ t = (s.setOut (encryptPayload p sk)).setErr .none) := by
  unfold execEnc at h
  split_ifs at h with hv hc
  · rw [raiseError_eq] at h
    exact .inl ⟨hv, by simpa using h.symm⟩
  · rw [raiseError_eq] at h
    exact .inr (.inl ⟨by simpa using hv, hc, by simpa using h.symm⟩)
  · cases hp : s.payloadOperand with
    | none => simp [hp] at h
    | some p =>
      cases hs : s.scheduleOperand with
      | none => simp [hp, hs] at h
      | some sk =>
        exact .inr (.inr ⟨by simpa using hv, by omega, p, sk, rfl, rfl, by simpa [hp, hs] using h.symm⟩)

/-- What `DEC` can do. -/
theorem execDec_cases {s t : State} (h : execDec s = .next t) :
    (s.keyValid = false ∧ t = (s.setErr .noKey).invalidateOut) ∨
    (s.keyValid = true ∧ s.inCap.val < s.inLen.toNat ∧ t = (s.setErr .capacityExceeded).invalidateOut) ∨
    (s.keyValid = true ∧ s.inLen.toNat ≤ s.inCap.val ∧ badCiphertextLength s.inLen.toNat = true ∧
      t = (s.setErr .invalidCiphertextLength).invalidateOut) ∨
    (s.keyValid = true ∧ s.inLen.toNat ≤ s.inCap.val ∧ badCiphertextLength s.inLen.toNat = false ∧
      ∃ c sk, s.payloadOperand = some c ∧ s.scheduleOperand = some sk ∧
        ((∃ e, decryptPayload c sk = .error e ∧ t = (s.setErr e).invalidateOut) ∨
         (∃ p, decryptPayload c sk = .ok p ∧ t = (s.setOut p).setErr .none))) := by
  unfold execDec at h
  split_ifs at h with hv hc hl
  · rw [raiseError_eq] at h
    exact .inl ⟨hv, by simpa using h.symm⟩
  · rw [raiseError_eq] at h
    exact .inr (.inl ⟨by simpa using hv, hc, by simpa using h.symm⟩)
  · rw [raiseError_eq] at h
    exact .inr (.inr (.inl ⟨by simpa using hv, by omega, hl, by simpa using h.symm⟩))
  · refine .inr (.inr (.inr ⟨by simpa using hv, by omega, by simpa using hl, ?_⟩))
    cases hp : s.payloadOperand with
    | none => simp [hp] at h
    | some c =>
      cases hs : s.scheduleOperand with
      | none => simp [hp, hs] at h
      | some sk =>
        refine ⟨c, sk, rfl, rfl, ?_⟩
        cases hd : decryptPayload c sk with
        | error e =>
          simp only [hp, hs, hd, raiseError_eq] at h
          exact .inl ⟨e, rfl, by simpa using h.symm⟩
        | ok p => exact .inr ⟨p, rfl, by simpa [hp, hs, hd] using h.symm⟩

end Sys2Proof.Machine
end

