-- ==== Sys2Proof/Laws/HostPort.lean ====
section
/-!
SUPPORT. Everything a host action can do: the address map's regions, and one inversion lemma each for writes, reads and steps.
-/

namespace Sys2Proof.Machine

/-- The register named by an offset of the map is at that offset. -/
theorem registerAt_eq_some {off : Nat} {r : Reg} : registerAt off = some r ↔ off = r.offset := by
  constructor
  · intro h
    unfold registerAt at h
    split_ifs at h <;> (cases h; assumption)
  · rintro rfl
    cases r <;> rfl

/-- An offset that names a register is that register's. -/
theorem locate_reg {cap : InCap} {off : Nat} {r : Reg} : locate cap off = .reg r ↔ off = r.offset := by
  have hoff : r.offset < 0x20 := by cases r <;> decide
  constructor
  · intro h
    unfold locate at h
    split_ifs at h with h0
    cases hr : registerAt off with
    | none => simp [hr] at h
    | some x =>
      simp only [hr, Target.reg.injEq] at h
      exact registerAt_eq_some.mp (h ▸ hr)
  · rintro rfl
    rw [locate, if_pos hoff, registerAt_eq_some.mpr rfl]

/-- An offset that names `IN[i]` is `IN_BASE + i` with `i < IN_CAP`. -/
theorem locate_inCell {cap : InCap} {off i : Nat} (h : locate cap off = .inCell i) :
    off = inBase + i ∧ i < cap.val := by
  unfold locate at h
  split_ifs at h with h0 h1 h2
  · cases hr : registerAt off <;> simp [hr] at h
  · rw [Target.inCell.injEq] at h
    omega

/-- `IN_BASE + i` names `IN[i]` when `i < IN_CAP`. -/
theorem locate_inBase_add {cap : InCap} {i : Nat} (h : i < cap.val) : locate cap (inBase + i) = .inCell i := by
  have hb : inBase = 0x10000 := rfl
  have h0 : ¬ inBase + i < 0x20 := by omega
  have h1 : inBase ≤ inBase + i ∧ inBase + i < inBase + cap.val := by omega
  rw [locate, if_neg h0, if_pos h1, Nat.add_sub_cancel_left]

/-- `OUT_BASE + i` names `OUT[i]` when `i < OUT_CAP`. -/
theorem locate_outBase_add {cap : InCap} {i : Nat} (h : i < outCap cap) : locate cap (outBase + i) = .outCell i := by
  have hb : inBase = 0x10000 := rfl
  have hb' : outBase = 0x20000 := rfl
  have hc := cap.hi
  have h0 : ¬ outBase + i < 0x20 := by omega
  have h1 : ¬ (inBase ≤ outBase + i ∧ outBase + i < inBase + cap.val) := by omega
  have h2 : outBase ≤ outBase + i ∧ outBase + i < outBase + outCap cap := ⟨by omega, by omega⟩
  rw [locate, if_neg h0, if_neg h1, if_pos h2, Nat.add_sub_cancel_left]

/-- What a host write can do. -/
theorem hostWrite_cases {width off : Nat} {v : BitVec width} {s t : State} (h : hostWrite width off v s = .next t) :
    (locate s.inCap off = .reg .cmd ∧ width = 32 ∧ issue (v.setWidth 32) s = .next t) ∨
    (locate s.inCap off = .reg .inLen ∧ width = 32 ∧ t = s.setInLen (v.setWidth 32)) ∨
    (locate s.inCap off = .reg .dinHi ∧ width = 32 ∧ t = s.setDinHi (v.setWidth 32)) ∨
    (locate s.inCap off = .reg .dinLo ∧ width = 32 ∧ t = s.setDinLo (v.setWidth 32)) ∨
    (∃ i, locate s.inCap off = .inCell i ∧ width = 8 ∧ t = s.writeIn i (v.setWidth 8)) := by
  unfold hostWrite at h
  cases hl : locate s.inCap off with
  | reg r =>
    simp only [hl] at h
    split_ifs at h with hw
    cases r with
    | cmd => exact .inl ⟨rfl, hw, by simpa [writeReg] using h⟩
    | inLen => exact .inr (.inl ⟨rfl, hw, by simpa [writeReg] using h.symm⟩)
    | dinHi => exact .inr (.inr (.inl ⟨rfl, hw, by simpa [writeReg] using h.symm⟩))
    | dinLo => exact .inr (.inr (.inr (.inl ⟨rfl, hw, by simpa [writeReg] using h.symm⟩)))
    | status => simp [writeReg] at h
    | outLen => simp [writeReg] at h
    | doutHi => simp [writeReg] at h
    | doutLo => simp [writeReg] at h
  | inCell i =>
    simp only [hl] at h
    split_ifs at h with hw
    exact .inr (.inr (.inr (.inr ⟨i, rfl, hw, by simpa using h.symm⟩)))
  | outCell i =>
    simp only [hl] at h
    split_ifs at h
  | misaligned => simp [hl] at h
  | reserved => simp [hl] at h

/-- A host read that answers changes nothing but what the host has observed. -/
theorem hostRead_cases {width off : Nat} {s t : State} (h : hostRead width off s = .next t) :
    ∃ v, t = s.observe v := by
  have key : ∀ v : Held ReadValue, returnRead v s = .next t → ∃ v, t = s.observe v := by
    intro v hv
    cases v with
    | none => simp [returnRead] at hv
    | some x => exact ⟨x, by simpa [returnRead] using hv.symm⟩
  unfold hostRead at h
  cases hl : locate s.inCap off with
  | reg r =>
    simp only [hl] at h
    split_ifs at h with hw
    cases r with
    | cmd => simp [readReg] at h
    | status => exact ⟨_, by simpa [readReg, returnRead] using h.symm⟩
    | inLen => exact ⟨_, by simpa [readReg, returnRead] using h.symm⟩
    | outLen => exact ⟨_, by simpa [readReg, returnRead] using h.symm⟩
    | dinHi => exact key _ h
    | dinLo => exact key _ h
    | doutHi => exact key _ h
    | doutLo => exact key _ h
  | inCell i =>
    simp only [hl] at h
    split_ifs at h
    exact key _ h
  | outCell i =>
    simp only [hl] at h
    split_ifs at h
    exact key _ h
  | misaligned => simp [hl] at h
  | reserved => simp [hl] at h

/-- A step performs the next action, or changes nothing when no action is left. -/
theorem step_cases {s t : State} (h : step s = .next t) :
    (s.program = [] ∧ t = s) ∨
    (∃ a rest, s.program = a :: rest ∧ performAction a (s.setProgram rest) = .next t) := by
  unfold step at h
  cases hp : s.program with
  | nil => exact .inl ⟨rfl, by simpa [hp] using h.symm⟩
  | cons a rest => exact .inr ⟨a, rest, rfl, by simpa [hp] using h⟩

end Sys2Proof.Machine
end

