-- ==== Sys2Proof/Laws/Memory.lean ====
section
/-!
SUPPORT. The laws of the byte buffers: reads after writes, the canonical form, and the buffer that holds a result.
-/

namespace Sys2Proof.Machine

/-- A read of the written cell gives the written byte. -/
@[simp] theorem Memory.read_write_same (m : Memory) (i : Nat) (b : Byte) : (m.write i b).read i = some b := by
  induction m with
  | nil => simp [Memory.write, Memory.read]
  | cons c m ih =>
    unfold Memory.write
    split_ifs with h1 h2
    · simp [Memory.read]
    · simp [Memory.read]
    · simp [Memory.read, h2, ih]

/-- A write leaves every other cell alone. -/
theorem Memory.read_write_other (m : Memory) {i j : Nat} (b : Byte) (h : j ≠ i) :
    (m.write i b).read j = m.read j := by
  induction m with
  | nil => simp [Memory.write, Memory.read, h]
  | cons c m ih =>
    unfold Memory.write
    split_ifs with h1 h2
    · simp [Memory.read, h]
    · subst h2
      simp [Memory.read, h]
    · simp [Memory.read, ih]

/-- Every entry of a buffer after a write is the written one or an old one. -/
theorem Memory.mem_write {m : Memory} {i : Nat} {b : Byte} {c : Host.Cell} (h : c ∈ m.write i b) :
    c = (i, b) ∨ c ∈ m := by
  induction m with
  | nil => simpa [Memory.write] using h
  | cons d m ih =>
    unfold Memory.write at h
    split_ifs at h with h1 h2
    · simpa using h
    · rcases List.mem_cons.mp h with h | h
      · exact .inl h
      · exact .inr (List.mem_cons_of_mem _ h)
    · rcases List.mem_cons.mp h with h | h
      · exact .inr (h ▸ List.mem_cons_self)
      · exact (ih h).imp_right (List.mem_cons_of_mem _)

/-- The canonical form as a property of the list. -/
theorem Memory.wf_iff (m : Memory) : m.wf = true ↔ m.Pairwise fun a b => a.1 < b.1 := by
  simp [Memory.wf]

/-- The empty buffer is in canonical form. -/
@[simp] theorem Memory.wf_nil : Memory.wf [] = true := by simp [Memory.wf]

/-- A write keeps the canonical form. -/
theorem Memory.wf_write {m : Memory} (i : Nat) (b : Byte) (h : m.wf = true) : (m.write i b).wf = true := by
  rw [Memory.wf_iff] at h ⊢
  induction m with
  | nil => simp [Memory.write]
  | cons c m ih =>
    obtain ⟨hc, hm⟩ := List.pairwise_cons.mp h
    unfold Memory.write
    split_ifs with h1 h2
    · refine List.pairwise_cons.mpr ⟨fun d hd => ?_, h⟩
      rcases List.mem_cons.mp hd with rfl | hd
      · exact h1
      · exact lt_trans h1 (hc d hd)
    · exact List.pairwise_cons.mpr ⟨fun d hd => h2 ▸ hc d hd, hm⟩
    · refine List.pairwise_cons.mpr ⟨fun d hd => ?_, ih hm⟩
      rcases Memory.mem_write hd with rfl | hd
      · simp only
        omega
      · exact hc d hd

/-- A read finds a listed cell, so a cell that holds a byte is listed. -/
theorem Memory.mem_of_read {m : Memory} {i : Nat} {b : Byte} (h : m.read i = some b) : (i, b) ∈ m := by
  induction m with
  | nil => simp [Memory.read] at h
  | cons c m ih =>
    unfold Memory.read at h
    split_ifs at h with hi
    · cases h
      subst hi
      exact List.mem_cons_self
    · exact List.mem_cons_of_mem _ (ih h)

/-- The buffer that holds `bs` from cell `i` on has `bs[j]` in cell `i + j`. -/
theorem Memory.read_ofBytes (i j : Nat) (bs : List Byte) : (Memory.ofBytes i bs).read (i + j) = bs[j]? := by
  induction bs generalizing i j with
  | nil => simp [Memory.ofBytes, Memory.read]
  | cons b bs ih =>
    cases j with
    | zero => simp [Memory.ofBytes, Memory.read]
    | succ j =>
      have h : i + (j + 1) ≠ i := by omega
      have h' : i + (j + 1) = (i + 1) + j := by omega
      simp only [Memory.ofBytes, Memory.read, if_neg h, List.getElem?_cons_succ]
      rw [h', ih]

/-- The buffer that holds `bs` from cell 0 on. -/
@[simp] theorem Memory.read_ofBytes_zero (j : Nat) (bs : List Byte) : (Memory.ofBytes 0 bs).read j = bs[j]? := by
  simpa using Memory.read_ofBytes 0 j bs

/-- Every listed cell of the buffer that holds `bs` from cell `i` on lies at or above `i`. -/
theorem Memory.le_of_mem_ofBytes {i : Nat} {bs : List Byte} {c : Host.Cell} (h : c ∈ Memory.ofBytes i bs) : i ≤ c.1 := by
  induction bs generalizing i with
  | nil => simp [Memory.ofBytes] at h
  | cons b bs ih =>
    rcases List.mem_cons.mp h with rfl | h
    · exact le_refl _
    · exact le_trans (Nat.le_succ i) (ih h)

/-- The buffer that holds a result is in canonical form. -/
theorem Memory.wf_ofBytes (i : Nat) (bs : List Byte) : (Memory.ofBytes i bs).wf = true := by
  rw [Memory.wf_iff]
  induction bs generalizing i with
  | nil => simp [Memory.ofBytes]
  | cons b bs ih =>
    exact List.pairwise_cons.mpr ⟨fun c hc => Memory.le_of_mem_ofBytes hc, ih (i + 1)⟩

/-- A sequence of `n + 1` bytes is its first byte and the `n` after it. -/
theorem Memory.readBytes_succ (m : Memory) (i n : Nat) : m.readBytes i (n + 1) =
    match m.read i, m.readBytes (i + 1) n with
    | some b, some bs => some (b :: bs)
    | _, _ => none := rfl

/-- A sequence that is read has the length asked for. -/
theorem Memory.readBytes_length {m : Memory} {i n : Nat} {bs : List Byte} (h : m.readBytes i n = some bs) :
    bs.length = n := by
  induction n generalizing i bs with
  | zero => simp [Memory.readBytes] at h; simp [← h]
  | succ n ih =>
    unfold Memory.readBytes at h
    split at h
    · next b bs' _ h2 => cases h; simp [ih h2]
    · cases h

/-- A sequence is read exactly when every cell of it holds its byte. -/
theorem Memory.readBytes_eq_some {m : Memory} {i n : Nat} {bs : List Byte} :
    m.readBytes i n = some bs ↔ bs.length = n ∧ ∀ j, j < n → m.read (i + j) = bs[j]? := by
  induction n generalizing i bs with
  | zero =>
    constructor
    · intro h
      simp [Memory.readBytes] at h
      simp [← h]
    · rintro ⟨h, -⟩
      simp [Memory.readBytes, List.length_eq_zero_iff.mp h]
  | succ n ih =>
    constructor
    · intro h
      unfold Memory.readBytes at h
      split at h
      · next b bs' h1 h2 =>
        cases h
        obtain ⟨hl, hr⟩ := ih.mp h2
        refine ⟨by simp [hl], fun j hj => ?_⟩
        cases j with
        | zero => simpa using h1
        | succ j =>
          have := hr j (by omega)
          simpa [Nat.add_assoc, Nat.add_comm 1 j] using this
      · cases h
    · rintro ⟨hl, hr⟩
      cases bs with
      | nil => simp at hl
      | cons b bs =>
        have h0 : m.read i = some b := by simpa using hr 0 (by omega)
        have h1 : m.readBytes (i + 1) n = some bs := by
          refine ih.mpr ⟨by simpa using hl, fun j hj => ?_⟩
          have := hr (j + 1) (by omega)
          simpa [Nat.add_assoc, Nat.add_comm 1 j] using this
        simp [Memory.readBytes, h0, h1]

/-- A sequence cannot be read exactly when one of its cells holds `⊥`. -/
theorem Memory.readBytes_eq_none {m : Memory} {i n : Nat} :
    m.readBytes i n = none ↔ ∃ j, j < n ∧ m.read (i + j) = none := by
  induction n generalizing i with
  | zero => simp [Memory.readBytes]
  | succ n ih =>
    have step : (∃ j, j < n + 1 ∧ m.read (i + j) = none) ↔
        m.read i = none ∨ ∃ j, j < n ∧ m.read (i + 1 + j) = none := by
      constructor
      · rintro ⟨j, hj, h⟩
        cases j with
        | zero => exact .inl (by simpa using h)
        | succ j => exact .inr ⟨j, by omega, by simpa [Nat.add_assoc, Nat.add_comm 1 j] using h⟩
      · rintro (h | ⟨j, hj, h⟩)
        · exact ⟨0, by omega, by simpa using h⟩
        · exact ⟨j + 1, by omega, by simpa [Nat.add_assoc, Nat.add_comm 1 j] using h⟩
    rw [step, ← ih, Memory.readBytes_succ]
    cases m.read i <;> cases m.readBytes (i + 1) n <;> simp

/-- A result reads back as the bytes it was made of. -/
theorem Memory.readBytes_ofBytes (bs : List Byte) : (Memory.ofBytes 0 bs).readBytes 0 bs.length = some bs := by
  rw [Memory.readBytes_eq_some]
  exact ⟨rfl, fun j _ => by simp⟩

end Sys2Proof.Machine
end

