-- ==== Sys2Proof/Laws/PerInstr.lean ====
section
/-!
SUPPORT. What is proved of every command as syntax: the word of each is a command word in the sense of R84.
-/

namespace Sys2Proof.Laws.LegalWord

/-- The word of the command passes both checks on command words. -/
def Statement (i : Instr) : Prop := rsvIsZero (encode i) = true ∧ opIsCommand (encode i) = true

theorem ldkey : Statement .ldkey := ⟨by decide, by decide⟩

theorem enc : Statement .enc := ⟨by decide, by decide⟩

theorem dec : Statement .dec := ⟨by decide, by decide⟩

theorem encb : Statement .encb := ⟨by decide, by decide⟩

theorem decb : Statement .decb := ⟨by decide, by decide⟩

end Sys2Proof.Laws.LegalWord
end

