-- ==== Sys2Proof/Machine/Assembler.lean ====
section
/-!
DEFINITION. The text syntax of host programs (`30_encoding.md`, R88, R95, R96): from the characters of a program to its lines. A text that does not
follow the syntax gives no program.
-/

namespace Sys2Proof.Machine

/-- The parts of a line: words, punctuation and quoted strings. -/
inductive Token where
  | word (cs : List Char)
  | comma
  | openBracket
  | closeBracket
  | quoted (cs : List Char)
deriving DecidableEq, Repr

/-- The double quote that encloses an ASCII string. -/
def doubleQuote : Char := Char.ofNat 34

/-- The word read so far, its characters in reverse, before the tokens after it. -/
def endWord (cur : List Char) (rest : List Token) : List Token :=
  if cur.isEmpty then rest else .word cur.reverse :: rest

/-- The tokens of a line. A `;` outside a quoted string starts a comment (R95, log entry 8). -/
def tokenize : List Char → List Char → Bool → Option (List Token)
  | [], cur, inString => if inString then none else some (endWord cur [])
  | c :: cs, cur, true =>
    if c = doubleQuote then (tokenize cs [] false).map (.quoted cur.reverse :: ·) else tokenize cs (c :: cur) true
  | c :: cs, cur, false =>
    if c = ';' then some (endWord cur [])
    else if c = doubleQuote then (tokenize cs [] true).map (endWord cur)
    else if c = ',' then (tokenize cs [] false).map fun ts => endWord cur (.comma :: ts)
    else if c = '[' then (tokenize cs [] false).map fun ts => endWord cur (.openBracket :: ts)
    else if c = ']' then (tokenize cs [] false).map fun ts => endWord cur (.closeBracket :: ts)
    else if c.isWhitespace then (tokenize cs [] false).map (endWord cur)
    else tokenize cs (c :: cur) false

/-- The value of a decimal digit. -/
def decDigit (c : Char) : Option Nat :=
  if '0' ≤ c ∧ c ≤ '9' then some (c.toNat - '0'.toNat) else none

/-- The value of a hex digit, in either case. -/
def hexDigit (c : Char) : Option Nat :=
  if 'a' ≤ c ∧ c ≤ 'f' then some (c.toNat - 'a'.toNat + 10)
  else if 'A' ≤ c ∧ c ≤ 'F' then some (c.toNat - 'A'.toNat + 10)
  else decDigit c

/-- The digits of a number as values; none when one is no digit. -/
def digitsWith (digit : Char → Option Nat) : List Char → Option (List Nat)
  | [] => some []
  | c :: cs =>
    match digit c, digitsWith digit cs with
    | some d, some ds => some (d :: ds)
    | _, _ => none

/-- The number with the given digits in a base, most significant first; a number has at least one digit. -/
def digitsValue (base : Nat) : List Nat → Option Nat
  | [] => none
  | d :: ds => some ((d :: ds).foldl (fun acc x => acc * base + x) 0)

/-- The hex digits after `0x`. -/
def hexDigits : List Char → Option (List Nat)
  | '0' :: 'x' :: cs => digitsWith hexDigit cs
  | _ => none

/-- A number in hex with `0x` (R95). -/
def hexNumber (cs : List Char) : Option Nat := (hexDigits cs).bind (digitsValue 16)

/-- A number in hex with `0x`, or in decimal (R95). -/
def number (cs : List Char) : Option Nat :=
  match hexNumber cs with
  | some n => some n
  | none => (digitsWith decDigit cs).bind (digitsValue 10)

/-- A number that fits in `w` bits, as a value of that width. -/
def fitting (w : Nat) (n : Option Nat) : Option (BitVec w) :=
  match n with
  | some n => if n < 2 ^ w then some (BitVec.ofNat w n) else none
  | none => none

/-- The bytes of an even number of hex digits, the first two digits being byte 0. -/
def bytesOfDigits : List Nat → Option (List Byte)
  | [] => some []
  | [_] => none
  | d :: e :: ds => (bytesOfDigits ds).map (BitVec.ofNat 8 (16 * d + e) :: ·)

/-- The bytes of an ASCII string (R96). -/
def asciiBytes : List Char → Option (List Byte)
  | [] => some []
  | c :: cs => if c.toNat < 128 then (asciiBytes cs).map (BitVec.ofNat 8 c.toNat :: ·) else none

/-- `<bytes>`: a hex byte string or an ASCII string in double quotes (R96). DESIGN CHOICE (log entry 8): a bare `0x` with no digit
after it is the empty byte string, on which the rule is silent. -/
def bytesToken : Token → Option (List Byte)
  | .word cs => (hexDigits cs).bind bytesOfDigits
  | .quoted cs => asciiBytes cs
  | _ => none

/-- R88: the command of a mnemonic, in any case. -/
def mnemonic (cs : List Char) : Option Instr :=
  let m := cs.map Char.toUpper
  if m = ['L', 'D', 'K', 'E', 'Y'] then some .ldkey
  else if m = ['E', 'N', 'C'] then some .enc
  else if m = ['D', 'E', 'C'] then some .dec
  else if m = ['E', 'N', 'C', 'B'] then some .encb
  else if m = ['D', 'E', 'C', 'B'] then some .decb
  else none

/-- The registers a line names (R95). -/
def registerNames : List (List Char × Reg) :=
  [(['S', 'T', 'A', 'T', 'U', 'S'], .status), (['I', 'N', '_', 'L', 'E', 'N'], .inLen),
   (['O', 'U', 'T', '_', 'L', 'E', 'N'], .outLen), (['D', 'I', 'N', '_', 'H', 'I'], .dinHi),
   (['D', 'I', 'N', '_', 'L', 'O'], .dinLo), (['D', 'O', 'U', 'T', '_', 'H', 'I'], .doutHi),
   (['D', 'O', 'U', 'T', '_', 'L', 'O'], .doutLo)]

/-- The register of a name. -/
def registerNamed (cs : List Char) : Option Reg := (registerNames.find? fun e => e.1 = cs).map Prod.snd

/-- What `wr` may write: `IN_LEN`, `DIN_HI`, `DIN_LO` or a hex offset (R95). -/
def writeOffset (cs : List Char) : Option Nat :=
  match registerNamed cs with
  | some .inLen => some Reg.inLen.offset
  | some .dinHi => some Reg.dinHi.offset
  | some .dinLo => some Reg.dinLo.offset
  | some _ => none
  | none => hexNumber cs

/-- The first words of the lines (R95, R96). -/
inductive Keyword where
  | wr | wrb | rd | rdb | cmd | reset
  | loadIn | loadKey | encrypt | decrypt | setBlk | encBlk | decBlk | readOut | readBlk
deriving DecidableEq, Repr

/-- The spellings of the first words. -/
def keywords : List (List Char × Keyword) :=
  [(['w', 'r'], .wr), (['w', 'r', 'b'], .wrb), (['r', 'd'], .rd), (['r', 'd', 'b'], .rdb), (['c', 'm', 'd'], .cmd),
   (['r', 'e', 's', 'e', 't'], .reset), (['L', 'O', 'A', 'D', 'I', 'N'], .loadIn),
   (['L', 'O', 'A', 'D', 'K', 'E', 'Y'], .loadKey), (['E', 'N', 'C', 'R', 'Y', 'P', 'T'], .encrypt),
   (['D', 'E', 'C', 'R', 'Y', 'P', 'T'], .decrypt), (['S', 'E', 'T', 'B', 'L', 'K'], .setBlk),
   (['E', 'N', 'C', 'B', 'L', 'K'], .encBlk), (['D', 'E', 'C', 'B', 'L', 'K'], .decBlk),
   (['R', 'E', 'A', 'D', 'O', 'U', 'T'], .readOut), (['R', 'E', 'A', 'D', 'B', 'L', 'K'], .readBlk)]

/-- The line with a given first word and the given tokens after it (R95, R96). DESIGN CHOICE (log entry 8): the hex word of `cmd` may
have any number of digits, at least one, whose value fits in 32 bits; R88 writes eight digits and R95 says only `<hex word>`. -/
def lineOf (k : Keyword) (rest : List Token) : Option Line :=
  match k, rest with
  | .wr, [.word r, .comma, .word v] =>
    match writeOffset r, fitting 32 (number v) with
    | some off, some w => some (.wr off w)
    | _, _ => none
  | .wrb, [.word ['I', 'N'], .openBracket, .word i, .closeBracket, .comma, .word v] =>
    match number i, fitting 8 (number v) with
    | some n, some b => some (.wrb n b)
    | _, _ => none
  | .rd, [.word r] => (registerNamed r).map .rd
  | .rdb, [.word ['I', 'N'], .openBracket, .word i, .closeBracket] => (number i).map .rdbIn
  | .rdb, [.word ['O', 'U', 'T'], .openBracket, .word i, .closeBracket] => (number i).map .rdbOut
  | .cmd, [.word m] =>
    match mnemonic m with
    | some i => some (.cmd i)
    | none => (fitting 32 (hexNumber m)).map .cmdWord
  | .reset, [] => some .reset
  | .loadIn, [t] => (bytesToken t).map .loadIn
  | .loadKey, [t] => (bytesToken t).map .loadKey
  | .encrypt, [t] => (bytesToken t).map .encrypt
  | .decrypt, [t] => (bytesToken t).map .decrypt
  | .setBlk, [.word v] => (fitting 64 (number v)).map .setBlk
  | .encBlk, [.word v] => (fitting 64 (number v)).map .encBlk
  | .decBlk, [.word v] => (fitting 64 (number v)).map .decBlk
  | .readOut, [] => some .readOut
  | .readBlk, [] => some .readBlk
  | _, _ => none

/-- One line of text: no line of a program for a blank line or a comment, else one (R95). -/
def parseLine (cs : List Char) : Option (List Line) :=
  match tokenize cs [] false with
  | some [] => some []
  | some (.word w :: rest) =>
    match keywords.find? fun e => e.1 = w with
    | some e => (lineOf e.2 rest).map ([·])
    | none => none
  | _ => none

/-- The lines of a text, the characters of the first one read so far standing in reverse. -/
def textLines : List Char → List Char → List (List Char)
  | [], cur => [cur.reverse]
  | c :: cs, cur => if c = '\n' then cur.reverse :: textLines cs [] else textLines cs (c :: cur)

/-- The lines of a program from its lines of text. -/
def parseLines : List (List Char) → Option (List Line)
  | [] => some []
  | t :: ts =>
    match parseLine t, parseLines ts with
    | some l, some ls => some (l ++ ls)
    | _, _ => none

/-- R95: a host program from its text. -/
def parseProgram (text : List Char) : Option (List Line) := parseLines (textLines text [])

end Sys2Proof.Machine
end

