-- ==== Sys2Proof/Tests/Slice0.lean ====
section
/-!
SUPPORT. The model's own tests, each on expected values of the spec (`95_test_vectors.md` unless a comment says otherwise), the smoke tests of the
word checks, and for every statement with hypotheses concrete states and operands that meet them.
-/

namespace Sys2Proof.Tests

open Sys2Proof Sys2Proof.Machine

/-! ### Small states and views -/

/-- A core with `IN_CAP` = 16, as the vectors of section 2 take it. -/
def cap16 : InCap := ⟨16, by decide, by decide⟩

/-- That core after reset. -/
def start : State := State.resetWith cap16

/-- `TESTKEY1`. -/
def testKey : Block := 0x544553544B455931

/-- The classic key. -/
def classicKey : Block := 0x133457799BBCDFF1

/-- The core with a key and its schedule loaded. -/
def loaded (k : Block) : State :=
  { start with key := some k, sk := heldSchedule (keySchedule k), keyValid := true }

/-- A state with the given bytes in `IN` from cell 0 on and their number in `IN_LEN`. -/
def State.withInput (s : State) (bs : List Byte) : State :=
  { s with inBuf := Memory.ofBytes 0 bs, inLen := BitVec.ofNat 32 bs.length }

/-- A state with a block in `DIN`. -/
def State.withBlock (s : State) (v : Block) : State :=
  { s with dinHi := some (v.extractLsb' 32 32), dinLo := some (v.extractLsb' 0 32) }

/-- A view of the next state; nothing where there is none. -/
def after {α : Type} (f : State → α) : Result → Option α
  | .next t => some (f t)
  | _ => none

/-- The fault, where there is one. -/
def faultOf : Result → Option Fault
  | .fault r => some r
  | _ => none

/-- The refusal, where there is one. -/
def refusalOf : Result → Option Refusal
  | .refused r => some r
  | _ => none

/-- `STATUS`, `OUT_LEN` and the bytes of `OUT[0..OUT_LEN)`. -/
def State.outView (s : State) : Word × Word × Option (List Byte) :=
  (s.statusWord, s.outLen, s.outBuf.readBytes 0 s.outLen.toNat)

/-- `STATUS` and `DOUT`. -/
def State.doutView (s : State) : Word × Held Word × Held Word := (s.statusWord, s.doutHi, s.doutLo)

/-- The bytes of "Hello123". -/
def hello : List Byte := [0x48, 0x65, 0x6C, 0x6C, 0x6F, 0x31, 0x32, 0x33]

/-- What `ENC` makes of "Hello123" under `TESTKEY1` (S1). -/
def helloCipher : List Byte :=
  [0x9B, 0xBD, 0x2E, 0xCB, 0x91, 0x7F, 0xC3, 0x29, 0xBA, 0xF5, 0xC6, 0xAB, 0x3C, 0xA0, 0x45, 0xC4]

/-! ### The checks on command words (R84): ill-formed words are refused -/

theorem test_rsv_bit8_refused : rsvIsZero 0x00000103 = false := by decide

theorem test_rsv_bit31_refused : rsvIsZero 0x80000001 = false := by decide

theorem test_op_zero_refused : opIsCommand 0x00000000 = false := by decide

theorem test_op_six_refused : opIsCommand 0x00000006 = false := by decide

theorem test_op_ff_refused : opIsCommand 0x000000FF = false := by decide

theorem test_word_all_ones_refused : wordIsCommand 0xFFFFFFFF = false := by decide

/-! ### Decoding: words written bit by bit from the format of R81, `RSV` in bits 31:8 and `OP` in bits 7:0 -/

theorem test_decode_ldkey : decode 0b00000000000000000000000000000001 = .command .ldkey := by decide

theorem test_decode_enc : decode 0b00000000000000000000000000000010 = .command .enc := by decide

theorem test_decode_dec : decode 0b00000000000000000000000000000011 = .command .dec := by decide

theorem test_decode_encb : decode 0b00000000000000000000000000000100 = .command .encb := by decide

theorem test_decode_decb : decode 0b00000000000000000000000000000101 = .command .decb := by decide

theorem test_decode_rejects_by_name : decode 0x00000103 = .illegal .reservedBits ∧ decode 0x00000006 = .illegal .unknownOp := by decide

theorem test_table_rows : [1, 2, 3, 4, 5].map (decodeTableWord 32) =
    [some .ldkey, some .enc, some .dec, some .encb, some .decb] := by decide

/-- A row's word runs as the first command after reset: `LDKEY` with `IN_LEN` = 0 and the others without a key (section 2.8). -/
theorem test_rows_run_after_reset : [1, 2, 3, 4, 5].map (fun w => after State.statusWord (step (State.reset.withFetchWord 32 w))) =
    [some 0x10, some 0x40, some 0x40, some 0x40, some 0x40] := by decide

theorem test_reset_memories_canonical : State.reset.inBuf.wf = true ∧ State.reset.outBuf.wf = true := by decide

/-! ### The functions (sections 2.1 to 2.4) -/

theorem test_pc1_stage : pc1Stage classicKey = (0xF0CCAAF, 0x556678F) ∧ pc1Stage 0x8000000000000000 = (0x0100000, 0) := by decide +kernel

theorem test_rotl28 : rotl28 0x8000000 1 = 0x0000001 ∧ rotl28 0xC000000 2 = 0x0000003 ∧ rotl28 0xF0CCAAF 1 = 0xE19955F := by decide

theorem test_schedule_of_classic_key : (keySchedule classicKey).toList =
    [0x1B02EFFC7072, 0x79AED9DBC9E5, 0x55FC8A42CF99, 0x72ADD6DB351D, 0x7CEC07EB53A8, 0x63A53E507B2F, 0xEC84B7F618BC,
     0xF78A3AC13BFB, 0xE0DBEBEDE781, 0xB1F347BA464F, 0x215FD3DED386, 0x7571F59467E9, 0x97C5D1FABA41, 0x5F43B7F2E73A,
     0xBF918D3D3F0A, 0xCB3D8B0E17F5] := by decide +kernel

theorem test_round_function_stages : expandHalf 0xF0AAF0AA = 0x7A15557A1555 ∧ mixKey 0x7A15557A1555 0x1B02EFFC7072 = 0x6117BA866527 ∧
    substitute 0x6117BA866527 = 0x5C82B597 ∧ permute roundPerm (0x5C82B597 : Half) = (0x234AA9BB : Half) := by decide +kernel

theorem test_sbox_corners : substitute 0 = 0xEFA72C4D ∧ substitute 0xFFFFFFFFFFFF = 0xD9CE3DCB ∧
    sboxLookup s1 0x01 = 0 ∧ sboxLookup s1 0x20 = 4 ∧ sboxLookup s8 0x01 = 1 ∧ sboxLookup s8 0x20 = 7 := by decide +kernel

theorem test_round : feistelRound (0xCC00CCFF, 0xF0AAF0AA) 0x1B02EFFC7072 = (0xF0AAF0AA, 0xEF4A6544) := by decide +kernel

theorem test_known_answers : transform 0x4E6F772069732074 (keySchedule 0x0123456789ABCDEF) true = 0x3FA40E8A984D4815 ∧
    transform 0 (keySchedule 0) true = 0x8CA64DE9C1B123A7 ∧
    transform 0xFFFFFFFFFFFFFFFF (keySchedule 0xFFFFFFFFFFFFFFFF) true = 0x7359B2163E4EDC58 ∧
    transform 0x0123456789ABCDEF (keySchedule classicKey) false = 0xEE0F7C12E0B09338 := by decide +kernel

theorem test_unpad : unpad [0x41, 0x41, 0x41, 0x41, 0x41, 0x41, 0x02, 0x02] = .ok [0x41, 0x41, 0x41, 0x41, 0x41, 0x41] ∧
    unpad [0x41, 0x41, 0x41, 0x41, 0x41, 0x41, 0x02, 0x03] = .error .malformedPadding ∧
    unpad [0x41, 0x41, 0x41, 0x41, 0x41, 0x41, 0x41, 0x09] = .error .malformedPadding ∧
    unpad [0x41, 0x41, 0x41, 0x41, 0x41, 0x41, 0x41, 0x00] = .error .malformedPadding := by decide

/-! ### The commands, one step each (sections 2.1.5, 2.3.3 and 2.5) -/

theorem test_ldkey_loads : after (fun t => (t.statusWord, t.key, t.sk[0], t.sk[15]))
    (exec .ldkey (State.withInput start [0x54, 0x45, 0x53, 0x54, 0x4B, 0x45, 0x59, 0x31])) =
    some (0x00000001, some 0x544553544B455931, some 0xB092226D6050, some 0xE092A2801BE1) := by decide +kernel

theorem test_ldkey_wrong_length_keeps_key : after (fun t => (t.statusWord, t.key))
    (exec .ldkey (State.withInput (loaded testKey) [0x54, 0x45, 0x53, 0x54, 0x4B, 0x45, 0x59, 0x32, 0x58, 0x59])) =
    some (0x00000011, some testKey) := by decide +kernel

theorem test_encb : after State.doutView (exec .encb (State.withBlock (loaded classicKey) 0x0123456789ABCDEF)) =
    some (0x00000001, some 0x85E81354, some 0x0F0AB405) := by decide +kernel

theorem test_encb_no_key : after State.doutView (exec .encb start) = some (0x00000040, none, none) := by decide

theorem test_decb : after State.doutView (exec .decb (State.withBlock (loaded classicKey) 0x85E813540F0AB405)) =
    some (0x00000001, some 0x01234567, some 0x89ABCDEF) := by decide +kernel

theorem test_decb_low_half_unwritten : faultOf (exec .decb { loaded classicKey with dinHi := some 0x01234567 }) =
    some .unwrittenRead := by decide +kernel

theorem test_enc : after State.outView (exec .enc (State.withInput (loaded testKey) hello)) =
    some (0x00000001, 16, some helloCipher) := by decide +kernel

theorem test_enc_too_long : after State.outView (exec .enc { loaded testKey with inLen := 17 }) =
    some (0x00000061, 0, some []) := by decide +kernel

theorem test_dec : after State.outView (exec .dec (State.withInput (loaded testKey) helloCipher)) =
    some (0x00000001, 8, some hello) := by decide +kernel

theorem test_dec_malformed : after State.outView
    (exec .dec (State.withInput (loaded testKey) [0xAD, 0x99, 0x26, 0xED, 0xD8, 0xF5, 0x9A, 0x41])) =
    some (0x00000031, 0, some []) := by decide +kernel

/-! ### Host accesses (section 2.7) -/

theorem test_refused_reads : refusalOf (performAction (.read 32 0x00) start) = some .commandRead ∧
    refusalOf (performAction (.read 32 0x20) start) = some .reservedOffset ∧
    refusalOf (performAction (.read 32 0x02) start) = some .misalignedRegister ∧
    refusalOf (performAction (.read 8 0x04) start) = some .improperWidth ∧
    refusalOf (performAction (.read 8 0x20018) start) = some .reservedOffset := by decide

theorem test_refused_writes : refusalOf (performAction (.write 32 0x04 0) start) = some .readOnlyWritten ∧
    refusalOf (performAction (.write 32 0x10000 0) start) = some .improperWidth ∧
    refusalOf (performAction (.write 8 0x20000 0) start) = some .readOnlyWritten ∧
    refusalOf (performAction (.write 8 0x10010 0) start) = some .reservedOffset := by decide

theorem test_reads_after_reset : after State.observed (performAction (.read 32 0x04) start) = some [.word 0] ∧
    faultOf (performAction (.read 8 0x10000) start) = some .unwrittenRead ∧
    faultOf (performAction (.read 8 0x20017) start) = some .unwrittenRead ∧
    faultOf (performAction (.read 32 0x1C) start) = some .unwrittenRead := by decide

theorem test_din_halves_are_apart : after (fun t => (t.dinHi, t.dinLo)) (performAction (.write 32 0x10 0x12345678) start) =
    some (some 0x12345678, none) := by decide

theorem test_illegal_word : after State.statusWord (performAction (.command 0x00000103) start) = some 0x00000050 := by decide

theorem test_reset_action : after (fun t => (t.statusWord, t.key, t.inLen)) (performAction .reset (State.withInput (loaded testKey) hello)) =
    some (0, none, 0) := by decide +kernel

/-! ### Lines of host programs (R88, R95, R96; program P3 of section 3.3) -/

theorem test_line_wr : parseLine ['w', 'r', ' ', 'I', 'N', '_', 'L', 'E', 'N', ',', ' ', '1', '7', ' ', ';', 'x'] =
    some [.wr 0x08 17] := by decide +kernel

theorem test_line_cmd : parseLine ['c', 'm', 'd', ' ', 'e', 'n', 'c', 'B'] = some [.cmd .encb] := by decide +kernel

theorem test_line_rdb : parseLine ['r', 'd', 'b', ' ', 'O', 'U', 'T', '[', '3', ']'] = some [.rdbOut 3] := by decide +kernel

theorem test_line_encrypt_expands : ((parseLine ['E', 'N', 'C', 'R', 'Y', 'P', 'T', ' ', doubleQuote, 'A', doubleQuote]).map
    fun ls => ls.flatMap (Line.expand 0)) =
    some [.write 8 0x10000 0x41, .write 32 0x0008 1, .write 32 0x0000 2] := by decide +kernel

theorem test_line_setblk_expands : Line.expand 0 (.setBlk 0x0123456789ABCDEF) =
    [.write 32 0x0010 0x01234567, .write 32 0x0014 0x89ABCDEF] := by decide

theorem test_readout_expands : Line.expand 2 .readOut =
    [.read 32 0x0004, .read 32 0x000C, .read 8 0x20000, .read 8 0x20001] := by decide

/-! ### Witnesses: concrete states and operands that meet the hypotheses of the statements, clause by clause -/

/-- The loaded core is a state the core can be in. -/
theorem loaded_consistent (k : Block) : (loaded k).Consistent where
  inCanonical := rfl
  outCanonical := rfl
  inWithinCapacity := by simp [loaded, start, State.resetWith, Memory.read]
  outHoldsResult := by simp [loaded, start, State.resetWith, Memory.read]
  outFits := by simp [loaded, start, State.resetWith]
  keyed := fun _ => ⟨k, rfl, rfl⟩
  unkeyed := by simp [loaded]
  doutWhole := rfl

theorem witness_DecodeEncodeAgree : Instr.decb.wf = true ∧ decode 0x00000005 = .command .decb := by decide

theorem witness_IllegalWordsOnlySetErr :
    (∃ why, decode 0x00000000 = .illegal why) ∧ (∃ why, decode 0x00000006 = .illegal why) ∧
    (∃ why, decode 0x000000FF = .illegal why) ∧ (∃ why, decode 0x00000101 = .illegal why) :=
  ⟨⟨.unknownOp, by decide⟩, ⟨.unknownOp, by decide⟩, ⟨.unknownOp, by decide⟩, ⟨.reservedBits, by decide⟩⟩

/-- A state in which the host's next action issues `LDKEY`, and one in which it issues an illegal word. -/
theorem witness_StepIssuesDecodedCommand :
    (start.withFetchWord 32 1).program = .command 1 :: [] ∧ decode 1 = .command .ldkey ∧
    (start.withFetchWord 32 6).program = .command 6 :: [] ∧ decode 6 = .illegal .unknownOp := by decide

theorem witness_StepPerformsNextAction : (start.withFetchWord 32 2).program = .command 2 :: [] ∧ start.program = [] := by decide

theorem witness_StepwiseRunIsProgramRun : ∃ t, RunEnds { start with program := [.reset, .command 1, .read 32 0x0004] } t ∧
    t.observed = [.word 0x00000010] := ⟨_, ⟨rfl, rfl⟩, by decide⟩

theorem witness_LdkeyLoadsKeyAndSchedule :
    (State.withInput start [1, 2, 3, 4, 5, 6, 7]).inLen ≠ 8 ∧ (State.withInput start [1, 2, 3, 4, 5, 6, 7, 8, 9]).inLen ≠ 8 ∧
    (State.withInput start hello).inLen = 8 ∧ hello.length = 8 ∧
    (∀ i, i < 8 → (State.withInput start hello).inBuf.read i = hello[i]?) ∧
    ({ State.withInput start [1, 2, 3, 4, 5, 6, 7] with inLen := 8 } : State).inLen = 8 ∧
    ({ State.withInput start [1, 2, 3, 4, 5, 6, 7] with inLen := 8 } : State).inBuf.read 7 = none := by decide

/-- Without a key; with a key and a block; with a key and either half of `DIN` unwritten. -/
theorem witness_EncbEncryptsDin :
    start.keyValid = false ∧ (State.withBlock (loaded classicKey) 5).keyValid = true ∧
    (State.withBlock (loaded classicKey) 5).sk = heldSchedule (keySchedule classicKey) ∧
    (State.withBlock (loaded classicKey) 5).dinHi = some 0 ∧ (State.withBlock (loaded classicKey) 5).dinLo = some 5 ∧
    ({ loaded classicKey with dinHi := some 0 } : State).dinLo = none ∧
    ({ loaded classicKey with dinLo := some 0 } : State).dinHi = none := ⟨rfl, rfl, rfl, by decide +kernel, by decide +kernel, rfl, rfl⟩

theorem witness_DecbDecryptsDin :
    start.keyValid = false ∧ (State.withBlock (loaded classicKey) 5).keyValid = true ∧
    (State.withBlock (loaded classicKey) 5).sk = heldSchedule (keySchedule classicKey) ∧
    (State.withBlock (loaded classicKey) 5).dinHi = some 0 ∧ (State.withBlock (loaded classicKey) 5).dinLo = some 5 ∧
    ({ loaded classicKey with dinHi := some 0 } : State).dinLo = none ∧
    ({ loaded classicKey with dinLo := some 0 } : State).dinHi = none ∧
    after State.err (exec .encb (State.withBlock (loaded classicKey) 5)) = some .none :=
  ⟨rfl, rfl, rfl, by decide +kernel, by decide +kernel, rfl, rfl, by decide +kernel⟩

/-- Payloads of 0 and of `IN_CAP` bytes, one byte too many, and a payload whose last byte is unwritten. -/
theorem witness_EncEncryptsPayload :
    start.keyValid = false ∧ (loaded testKey).keyValid = true ∧ cap16.val < ({ loaded testKey with inLen := 17 } : State).inLen.toNat ∧
    (State.withInput (loaded testKey) []).inLen.toNat = 0 ∧ (State.withInput (loaded testKey) helloCipher).inLen.toNat = cap16.val ∧
    (State.withInput (loaded testKey) helloCipher).sk = heldSchedule (keySchedule testKey) ∧
    (∀ i, i < 16 → (State.withInput (loaded testKey) helloCipher).inBuf.read i = helloCipher[i]?) ∧
    ({ State.withInput (loaded testKey) hello with inLen := 9 } : State).inBuf.read 8 = none :=
  ⟨rfl, rfl, by decide, by decide, by decide, rfl, by decide, by decide⟩

/-- The lengths 0, 7 and 9 that are no ciphertext's; a malformed and a well-formed ciphertext; and one whose last byte is
unwritten. -/
theorem witness_DecDecryptsPayload :
    start.keyValid = false ∧ (loaded testKey).keyValid = true ∧ cap16.val < ({ loaded testKey with inLen := 17 } : State).inLen.toNat ∧
    (loaded testKey).inLen.toNat = 0 ∧ ({ loaded testKey with inLen := 7 } : State).inLen.toNat % 8 ≠ 0 ∧
    ({ loaded testKey with inLen := 9 } : State).inLen.toNat % 8 ≠ 0 ∧
    (State.withInput (loaded testKey) helloCipher).inLen.toNat = cap16.val ∧
    (∀ i, i < 16 → (State.withInput (loaded testKey) helloCipher).inBuf.read i = helloCipher[i]?) ∧
    (State.withInput (loaded testKey) helloCipher).sk = heldSchedule (keySchedule testKey) ∧
    decryptPayload helloCipher (keySchedule testKey) = .ok hello ∧
    decryptPayload hello (keySchedule testKey) = .error .malformedPadding ∧
    ({ State.withInput (loaded testKey) [1, 2, 3, 4, 5, 6, 7] with inLen := 8 } : State).inBuf.read 7 = none :=
  ⟨rfl, rfl, by decide, by decide, by decide, by decide, by decide, by decide, rfl, by decide +kernel, by decide +kernel, by decide⟩

/-- Every command answers a next state somewhere, without and with an error. -/
theorem witness_CommandsLeaveTheRestUnchanged :
    after State.err (exec .ldkey (State.withInput start hello)) = some .none ∧
    after State.err (exec .enc (State.withInput (loaded testKey) hello)) = some .none ∧
    after State.err (exec .dec (State.withInput (loaded testKey) helloCipher)) = some .none ∧
    after State.err (exec .encb (State.withBlock (loaded testKey) 0)) = some .none ∧
    after State.err (exec .decb (State.withBlock (loaded testKey) 0)) = some .none ∧
    [Instr.ldkey, .enc, .dec, .encb, .decb].map (fun i => after State.err (exec i start)) =
      [some .invalidKeyLength, some .noKey, some .noKey, some .noKey, some .noKey] := by decide +kernel

theorem witness_FailingCommandEffects :
    after State.err (exec .ldkey start) = some .invalidKeyLength ∧ after State.err (exec .enc start) = some .noKey ∧
    after State.err (exec .enc { loaded testKey with inLen := 17 }) = some .capacityExceeded ∧
    after State.err (exec .dec (loaded testKey)) = some .invalidCiphertextLength ∧
    after State.err (exec .dec (State.withInput (loaded testKey) hello)) = some .malformedPadding ∧
    after State.err (exec .encb start) = some .noKey ∧ after State.err (exec .decb start) = some .noKey ∧
    decode 0x80000001 = .illegal .reservedBits := by decide +kernel

/-- `DEC` reports each of its codes somewhere; the other commands' codes stand in the two witnesses above. -/
theorem witness_ReportableCodes :
    [loaded testKey, State.withInput (loaded testKey) hello, start, { loaded testKey with inLen := 0xFFFFFFFF },
      State.withInput (loaded testKey) helloCipher].map (fun s => after State.err (exec .dec s)) =
    [some .invalidCiphertextLength, some .malformedPadding, some .noKey, some .capacityExceeded, some .none] := by decide +kernel

theorem witness_ErrDescribesLastCommand :
    after State.err (performAction (.read 32 0x0004) { start with err := .noKey }) = some .noKey ∧
    (∀ w, (HostAction.read 32 0x0004) ≠ .command w) ∧ (HostAction.read 32 0x0004) ≠ .reset ∧
    after State.err (performAction .reset { start with err := .noKey }) = some .none :=
  ⟨by decide, fun _ h => HostAction.noConfusion h, by decide, by decide⟩

/-- States in which several errors apply at once: no key with a bad length (P5), and a length above `IN_CAP` that is no multiple
of 8 either. -/
theorem witness_ErrorPriority :
    decode 0x00000103 = .illegal .reservedBits ∧ ({ start with inLen := 25 } : State).keyValid = false ∧
    (loaded testKey).keyValid = true ∧ cap16.val < ({ loaded testKey with inLen := 25 } : State).inLen.toNat ∧
    start.inLen ≠ 8 ∧ ({ loaded testKey with inLen := 15 } : State).inLen.toNat ≤ cap16.val ∧
    ({ loaded testKey with inLen := 15 } : State).inLen.toNat % 8 ≠ 0 ∧
    after State.err (exec .dec (State.withInput (loaded testKey) hello)) = some .malformedPadding := by decide +kernel

/-- A state the core can be in where every command that reads an operand meets an unwritten cell. -/
theorem witness_CommandsFaultOnlyOnUnwritten : (loaded testKey).Consistent ∧ ({ loaded testKey with inLen := 8 } : State).Consistent ∧
    [Instr.ldkey, .enc, .dec, .encb, .decb].map (fun i => faultOf (exec i { loaded testKey with inLen := 8 })) =
      [some .unwrittenRead, some .unwrittenRead, some .unwrittenRead, some .unwrittenRead, some .unwrittenRead] :=
  have h := loaded_consistent testKey
  ⟨h, ⟨h.1, h.2, h.3, h.4, h.5, h.6, h.7, h.8⟩, by decide +kernel⟩

theorem witness_RepeatedCommandChangesNothing :
    after State.err (exec .enc (State.withInput (loaded testKey) hello)) = some .none ∧
    after State.err (exec .decb start) = some .noKey := by decide +kernel

theorem witness_OnlyLdkeyAndResetChangeKey :
    after State.err (exec .ldkey (State.withInput (loaded testKey) hello)) = some .none ∧
    after State.err (performAction (.command (encode .enc)) (loaded testKey)) = some .none ∧
    (HostAction.command (encode .enc)) ≠ .command (encode .ldkey) ∧ (HostAction.command (encode .enc)) ≠ .reset := by decide +kernel

theorem witness_OnlyResetClearsKeyValid : ({ loaded testKey with program := [.reset] } : State).keyValid = true ∧
    after State.keyValid (step { loaded testKey with program := [.reset] }) = some false := by decide +kernel

theorem witness_StepKeepsConsistent : ({ loaded testKey with program := [.command 2] } : State).Consistent ∧
    after State.outLen (step { loaded testKey with program := [.command 2] }) = some 8 :=
  have h := loaded_consistent testKey
  ⟨⟨h.1, h.2, h.3, h.4, h.5, h.6, h.7, h.8⟩, by decide +kernel⟩

/-- The first and the last cell of `IN`, and a cell beside the one written. -/
theorem witness_HostWritesOneCell : 0 < start.inCap.val ∧ 15 < start.inCap.val ∧ (14 : Nat) ≠ 15 := by decide

/-- The last cells of `IN` and `OUT`, each once with a value and once with `⊥`. -/
theorem witness_HostReadReturnsCell :
    15 < start.inCap.val ∧ 23 < start.inCap.val + 8 ∧ start.inBuf.read 15 = none ∧ start.outBuf.read 23 = none ∧
    ({ start with inBuf := [(15, 7)], outBuf := [(23, 9)], dinHi := some 1 } : State).inBuf.read 15 = some 7 ∧
    ({ start with inBuf := [(15, 7)], outBuf := [(23, 9)], dinHi := some 1 } : State).outBuf.read 23 = some 9 ∧
    start.dinHi = none ∧ start.doutLo = none := by decide

/-- The last proper and the first improper offset of each window. -/
theorem witness_RefusedAccesses :
    refusalOf (step { start with program := [.read 32 0x0000, .reset] }) = some .commandRead ∧
    refusalOf (performAction (.read 32 0x1C) start) = none ∧ refusalOf (performAction (.read 32 0x1D) start) = some .misalignedRegister ∧
    refusalOf (performAction (.read 8 0x1000F) start) = none ∧ refusalOf (performAction (.read 8 0x10010) start) = some .reservedOffset ∧
    refusalOf (performAction (.read 8 0x20017) start) = none ∧ refusalOf (performAction (.read 8 0x20018) start) = some .reservedOffset ∧
    refusalOf (performAction (.read 8 0xFFFF) start) = some .reservedOffset ∧
    refusalOf (performAction (.write 32 0x0000 0) start) = none ∧ refusalOf (performAction (.write 16 0x0008 0) start) = some .improperWidth := by decide

/-- `IN[15]` is written, `IN[14]` is written and a command runs in between, and both actions are allowed in between. -/
theorem witness_ReadReturnsLastWrite :
    after (fun t => t.inBuf.read 15) (performActions [.write 8 (0x10000 + 15) 7, .write 8 (0x10000 + 14) 9, .command 2] start) =
      some (some 7) ∧
    ∀ a ∈ [HostAction.write 8 (0x10000 + 14) 9, .command 2], a ≠ .reset ∧ ∀ b' : Byte, a ≠ .write 8 (0x10000 + 15) b' :=
  ⟨by decide, by simp [HostAction.command]⟩

theorem witness_DataWritesAreIdempotent :
    after (fun t => t.inBuf.read 15) (performAction (.write 8 0x1000F 7) start) = some (some 7) ∧
    after State.inLen (performAction (.write 32 0x0008 0xFFFFFFFF) start) = some 0xFFFFFFFF ∧
    (0x1000F : Nat) ≠ 0x0000 ∧ (0x0008 : Nat) ≠ 0x0000 := by decide

/-- As many bytes as `IN` holds, and none. -/
theorem witness_LoadInPlacesBytes : helloCipher.length ≤ start.inCap.val ∧ ([] : List Byte).length ≤ start.inCap.val ∧
    ¬ helloCipher.length + 1 ≤ start.inCap.val := by decide

theorem witness_BlockByteOrder : hello.length = 8 ∧ (7 : Nat) < 8 ∧ (1 : Nat) ≤ 1 ∧ (64 : Nat) ≤ 64 := by decide

/-- All eight parity bits, and a state with a whole key in `IN`. -/
theorem witness_ParityIsIgnored : (0x0101010101010101 : Block) &&& 0xFEFEFEFEFEFEFEFE = 0 ∧
    (State.withInput start hello).inLen = 8 ∧ hello.length = 8 ∧
    (∀ i, i < 8 → (State.withInput start hello).inBuf.read i = hello[i]?) := by decide

/-- Keys for each pair of equal halves. -/
theorem witness_EqualSubkeyKeys : pc1Stage 0x0101010101010101 = (0x0000000, 0x0000000) ∧ pc1Stage 0xFEFEFEFEFEFEFEFE = (0xFFFFFFF, 0xFFFFFFF) ∧
    pc1Stage 0x1F1F1F1F0E0E0E0E = (0x0000000, 0xFFFFFFF) ∧ pc1Stage 0xE0E0E0E0F1F1F1F1 = (0xFFFFFFF, 0x0000000) := by decide +kernel

/-- The least and the greatest remainder of a length. -/
theorem witness_PadAppendsCount : ([] : List Byte).length % 8 = 0 ∧ hello.length % 8 = 0 ∧ (hello.take 7).length % 8 = 7 := by decide

theorem witness_UnpadAcceptsExactlyPadded : pad [] ≠ [] ∧ (pad []).length % 8 = 0 ∧ hello ≠ [] ∧ hello.length % 8 = 0 := by decide

theorem witness_SplitAndJoin : ([] : List Byte).length % 8 = 0 ∧ helloCipher.length % 8 = 0 ∧ 1 < helloCipher.length / 8 := by decide

/-- The last block of a padded payload of 8 bytes, and the one block of the padded empty payload, which it equals. -/
theorem witness_BlocksAreIndependent : 1 < (pad hello).length / 8 ∧ 0 < (pad []).length / 8 ∧
    ((pad hello).drop (8 * 1)).take 8 = ((pad []).drop (8 * 0)).take 8 := by decide

/-- A payload as long as the round trip admits, and the empty one. -/
theorem witness_RoundTrip : hello.length = 8 ∧ hello.length + 8 ≤ start.inCap.val ∧ ([] : List Byte).length + 8 ≤ start.inCap.val := by decide

end Sys2Proof.Tests
end

section
/-!
The values of R38. The reset action writes them (`resetCore`), and the reset state is a state that action leaves as it is, so the field
lemmas of `resetCore` give its values. The lemmas here add what a read of `SK`, `IN`, `OUT` and `STATUS` then returns.
-/

namespace Sys2Proof.Machine

/-- R16: in the empty buffer every cell holds `⊥`. -/
@[simp] theorem Memory.read_nil (i : Nat) : Memory.read [] i = none := rfl

theorem resetCore_sk_getElem (s : State) (i : Fin 16) : s.resetCore.sk[i] = none := by simp

theorem resetCore_inBuf_read (s : State) (i : Nat) : s.resetCore.inBuf.read i = none := by simp

theorem resetCore_outBuf_read (s : State) (i : Nat) : s.resetCore.outBuf.read i = none := by simp

/-- R38: with `KEY_VALID` = 0 and the code `None`, every bit of `STATUS` is 0. -/
@[simp] theorem resetCore_statusWord (s : State) : s.resetCore.statusWord = 0 := by
  rw [State.statusWord, resetCore_keyValid, resetCore_err]
  decide

/-- R240: resetting the core in the reset state changes nothing. -/
theorem resetCore_reset : State.reset.resetCore = State.reset := rfl

/-- Settles O7: the reset state is what the reset action makes of it, and that action writes the values of R38. -/
theorem resetValues : Obligations.ResetValues := by
  unfold Obligations.ResetValues
  rw [← resetCore_reset]
  exact ⟨resetCore_key _, resetCore_keyValid _, resetCore_sk_getElem _,
    resetCore_dinHi _, resetCore_dinLo _, resetCore_doutHi _, resetCore_doutLo _,
    resetCore_inBuf_read _, resetCore_inLen _, resetCore_outBuf_read _, resetCore_outLen _,
    resetCore_statusWord _, resetCore_err _⟩

end Sys2Proof.Machine
end

section
/-!
What the host's accesses answer (R53 to R57): the map's regions as ranges of offsets, the answer of a proper access, and
which accesses are refused.
-/

namespace Sys2Proof.Machine

/-! ### The address map (R53) -/

/-- An offset that names `OUT[i]` is `OUT_BASE + i` with `i < OUT_CAP`. -/
theorem locate_outCell {cap : InCap} {off i : Nat} (h : locate cap off = .outCell i) :
    off = outBase + i ∧ i < outCap cap := by
  unfold locate at h
  split_ifs at h with h0 h1 h2
  · cases hr : registerAt off <;> simp [hr] at h
  · rw [Target.outCell.injEq] at h
    omega

/-- The `IN` window as a range of offsets. -/
theorem exists_locate_inCell {cap : InCap} {off : Nat} :
    (∃ i, locate cap off = .inCell i) ↔ inBase ≤ off ∧ off < inBase + cap.val := by
  constructor
  · rintro ⟨i, hi⟩
    have := locate_inCell hi
    omega
  · rintro ⟨hlo, hhi⟩
    obtain ⟨i, rfl⟩ := Nat.exists_eq_add_of_le hlo
    exact ⟨i, locate_inBase_add (by omega)⟩

/-- The `OUT` window as a range of offsets. -/
theorem exists_locate_outCell {cap : InCap} {off : Nat} :
    (∃ i, locate cap off = .outCell i) ↔ outBase ≤ off ∧ off < outBase + outCap cap := by
  constructor
  · rintro ⟨i, hi⟩
    have := locate_outCell hi
    omega
  · rintro ⟨hlo, hhi⟩
    obtain ⟨i, rfl⟩ := Nat.exists_eq_add_of_le hlo
    exact ⟨i, locate_outBase_add (by omega)⟩

/-- The offsets of the registers a list names. -/
theorem exists_locate_reg_mem {cap : InCap} {off : Nat} (rs : List Reg) :
    (∃ r ∈ rs, locate cap off = .reg r) ↔ off ∈ rs.map Reg.offset := by
  simp only [locate_reg, List.mem_map, eq_comm]

/-! ### The answer of a proper access (R54 to R56) -/

theorem performAction_read_reg (r : Reg) (s : State) : performAction (.read 32 r.offset) s = readReg r s := by
  rw [performAction, hostRead, locate_reg.mpr rfl]
  exact if_pos rfl

theorem performAction_read_inCell {s : State} {i : Nat} (h : i < s.inCap.val) :
    performAction (.read 8 (inBase + i)) s = returnRead ((s.inBuf.read i).map .byte) s := by
  rw [performAction, hostRead, locate_inBase_add h]
  exact if_pos rfl

theorem performAction_read_outCell {s : State} {i : Nat} (h : i < outCap s.inCap) :
    performAction (.read 8 (outBase + i)) s = returnRead ((s.outBuf.read i).map .byte) s := by
  rw [performAction, hostRead, locate_outBase_add h]
  exact if_pos rfl

theorem performAction_write_reg (r : Reg) (w : Word) (s : State) :
    performAction (.write 32 r.offset w) s = writeReg r w s := by
  rw [performAction, hostWrite, locate_reg.mpr rfl]
  exact (if_pos rfl).trans (by rw [BitVec.setWidth_eq])

theorem performAction_write_inCell {s : State} {i : Nat} (b : Byte) (h : i < s.inCap.val) :
    performAction (.write 8 (inBase + i) b) s = .next (s.writeIn i b) := by
  rw [performAction, hostWrite, locate_inBase_add h]
  exact (if_pos rfl).trans (by rw [BitVec.setWidth_eq])

/-- R56, R220: an action that reads a cell answers its value, or the fault where it holds `⊥`. -/
theorem answer_of_eq_returnRead {a : HostAction} {s : State} {v : Held ReadValue} (h : performAction a s = returnRead v s) :
    (∀ x, v = some x → performAction a s = .next { s with observed := s.observed ++ [x] }) ∧
    (v = none → performAction a s = .fault .unwrittenRead) := by
  rw [h]
  constructor
  · rintro x rfl
    rfl
  · rintro rfl
    rfl

/-! ### Refusals (R57) -/

/-- Without a key a block command fails; with one it answers or faults. -/
theorem runBlock_ne_refused (c : Instr) (forward : Bool) (s : State) (x : Refusal) : runBlock c forward s ≠ .refused x := by
  unfold runBlock
  rw [raiseError_eq]
  split_ifs
  · simp
  · cases s.blockOperand <;> cases s.scheduleOperand <;> simp

/-- No command is refused: every command has a meaning. -/
theorem exec_ne_refused (i : Instr) (s : State) (x : Refusal) : exec i s ≠ .refused x := by
  cases i with
  | ldkey =>
    unfold exec execLdkey
    rw [raiseError_eq]
    split_ifs
    · simp
    · cases s.keyOperand <;> simp
  | enc =>
    unfold exec execEnc
    simp only [raiseError_eq]
    split_ifs
    · simp
    · simp
    · cases s.payloadOperand <;> cases s.scheduleOperand <;> simp
  | dec =>
    unfold exec execDec
    simp only [raiseError_eq]
    split_ifs
    · simp
    · simp
    · simp
    · cases s.payloadOperand with
      | none => simp
      | some c =>
        cases s.scheduleOperand with
        | none => simp
        | some sk => cases hd : decryptPayload c sk <;> simp [hd]
  | encb => exact runBlock_ne_refused .encb true s x
  | decb => exact runBlock_ne_refused .decb false s x

/-- R84: no command word is refused, an illegal one included. -/
theorem issue_ne_refused (w : Word) (s : State) (x : Refusal) : issue w s ≠ .refused x := by
  unfold issue
  cases decode w with
  | command i => exact exec_ne_refused i s x
  | illegal why => simp [raiseError_eq]

/-- A read of a cell answers or faults. -/
@[simp] theorem returnRead_ne_refused (v : Held ReadValue) (s : State) (x : Refusal) : returnRead v s ≠ .refused x := by
  cases v <;> simp [returnRead]

/-- The registers the host can read (R53). -/
def readableRegs : List Reg := [.status, .inLen, .outLen, .dinHi, .dinLo, .doutHi, .doutLo]

/-- The registers the host can write (R53). -/
def writableRegs : List Reg := [.cmd, .inLen, .dinHi, .dinLo]

theorem readReg_refused_iff (r : Reg) (s : State) : (∃ x, readReg r s = .refused x) ↔ r ∉ readableRegs := by
  cases r <;> simp [readReg, readableRegs]

theorem writeReg_refused_iff (r : Reg) (w : Word) (s : State) : (∃ x, writeReg r w s = .refused x) ↔ r ∉ writableRegs := by
  cases r <;> simp [writeReg, writableRegs, issue_ne_refused]

/-- R57: a read is refused unless it names a readable register at 32 bits or a buffer cell at 8. -/
theorem hostRead_refused_iff (width off : Nat) (s : State) : (∃ x, hostRead width off s = .refused x) ↔
    ¬ ((width = 32 ∧ ∃ r ∈ readableRegs, locate s.inCap off = .reg r) ∨
       (width = 8 ∧ ∃ i, locate s.inCap off = .inCell i) ∨
       (width = 8 ∧ ∃ i, locate s.inCap off = .outCell i)) := by
  unfold hostRead
  cases locate s.inCap off with
  | reg r => by_cases hw : width = 32 <;> simp [hw, readReg_refused_iff]
  | inCell i => by_cases hw : width = 8 <;> simp [hw]
  | outCell i => by_cases hw : width = 8 <;> simp [hw]
  | misaligned => simp
  | reserved => simp

/-- R57: a write is refused unless it names a writable register at 32 bits or an `IN` cell at 8. -/
theorem hostWrite_refused_iff (width off : Nat) (v : BitVec width) (s : State) :
    (∃ x, hostWrite width off v s = .refused x) ↔
    ¬ ((width = 32 ∧ ∃ r ∈ writableRegs, locate s.inCap off = .reg r) ∨
       (width = 8 ∧ ∃ i, locate s.inCap off = .inCell i)) := by
  unfold hostWrite
  cases locate s.inCap off with
  | reg r => by_cases hw : width = 32 <;> simp [hw, writeReg_refused_iff]
  | inCell i => by_cases hw : width = 8 <;> simp [hw]
  | outCell i => by_cases hw : width = 8 <;> simp [hw]
  | misaligned => simp
  | reserved => simp

/-- A refused step ends the run as refused, at whatever length. -/
theorem run_succ_of_step_refused {M : Host.Core} {s : M.State} {x : M.Refusal} (h : M.step s = .refused x) (n : Nat) :
    M.run (n + 1) s = .refused x := by
  rw [Host.Core.run, h]

/-- R60, R63: a step performs the next action. -/
theorem step_of_program_cons {s : State} {a : HostAction} {rest : List HostAction} (h : s.program = a :: rest) :
    step s = performAction a { s with program := rest } := by
  rw [step, h]
  rfl

end Sys2Proof.Machine
end

section
/-!
The statements about single host accesses (R55 to R57).
-/

namespace Sys2Proof.Machine

/-- Settles O29: what is refused is read off the map's regions, and a refused step ends the run. -/
theorem refusedAccesses : Obligations.RefusedAccesses := by
  unfold Obligations.RefusedAccesses
  refine ⟨fun s a rest r hp hr => run_succ_of_step_refused (M := Sys2Proof.core) ((step_of_program_cons hp).trans hr),
    fun s width off => ⟨?_, fun v => ?_⟩⟩
  · have h := hostRead_refused_iff width off s
    rw [exists_locate_reg_mem, exists_locate_inCell, exists_locate_outCell] at h
    exact h
  · have h := hostWrite_refused_iff width off v s
    rw [exists_locate_reg_mem, exists_locate_inCell] at h
    exact h

/-- Settles O28: each proper read is a `returnRead` of the cell the map names. -/
theorem hostReadReturnsCell : Obligations.HostReadReturnsCell := by
  unfold Obligations.HostReadReturnsCell
  intro s
  exact ⟨answer_of_eq_returnRead (performAction_read_reg .status s),
    answer_of_eq_returnRead (performAction_read_reg .inLen s),
    answer_of_eq_returnRead (performAction_read_reg .outLen s),
    answer_of_eq_returnRead (performAction_read_reg .dinHi s),
    answer_of_eq_returnRead (performAction_read_reg .dinLo s),
    answer_of_eq_returnRead (performAction_read_reg .doutHi s),
    answer_of_eq_returnRead (performAction_read_reg .doutLo s),
    fun _ hi => answer_of_eq_returnRead (performAction_read_inCell hi),
    fun _ hi => answer_of_eq_returnRead (performAction_read_outCell hi)⟩

/-- Settles O27: the write of a data register is that register's update, and the write of an `IN` cell is a buffer write. -/
theorem hostWritesOneCell : Obligations.HostWritesOneCell := by
  unfold Obligations.HostWritesOneCell
  intro s
  exact ⟨fun w => performAction_write_reg .inLen w s, fun w => performAction_write_reg .dinHi w s,
    fun w => performAction_write_reg .dinLo w s,
    fun i b hi => ⟨s.writeIn i b, performAction_write_inCell b hi, rfl,
      Memory.read_write_same s.inBuf i b, fun _ hj => Memory.read_write_other s.inBuf b hj⟩⟩

end Sys2Proof.Machine
end

section
/-!
The decoder and the encoder (R81 to R87). Both read a word as its two fields, the reserved one and the command number, so each is
described by these fields alone, and what a word decodes to follows from comparing it with the five words of the opcode map.
-/

namespace Sys2Proof

/-- R81: a command word is its reserved field and its command number. -/
theorem cmdRsv_append_cmdOp (w : Word) : cmdRsv w ++ cmdOp w = w := by
  rw [cmdRsv, cmdOp, BitVec.extractLsb'_append_extractLsb'_eq_extractLsb' (by decide)]
  exact BitVec.extractLsb'_eq_self

@[simp] theorem cmdRsv_encode (i : Instr) : cmdRsv (encode i) = 0 := by
  cases i <;> rfl

@[simp] theorem cmdOp_encode (i : Instr) : cmdOp (encode i) = opOf i := by
  cases i <;> rfl

/-- A command's word is the one word with `RSV` = 0 and the command's number. -/
theorem eq_encode_iff {w : Word} {i : Instr} : w = encode i ↔ cmdRsv w = 0 ∧ cmdOp w = opOf i := by
  constructor
  · rintro rfl
    exact ⟨cmdRsv_encode i, cmdOp_encode i⟩
  · rintro ⟨hrsv, hop⟩
    rw [← cmdRsv_append_cmdOp w, hrsv, hop]
    rfl

theorem rsvIsZero_iff {w : Word} : rsvIsZero w = true ↔ cmdRsv w = 0 := beq_iff_eq

/-- R84, R87: a word the decoder accepts has the fields of the command it is accepted as. -/
theorem fields_of_decode {w : Word} {i : Instr} (h : decode w = .command i) : cmdRsv w = 0 ∧ cmdOp w = opOf i := by
  unfold decode at h
  split_ifs at h with hrsv
  refine ⟨rsvIsZero_iff.mp hrsv, BitVec.eq_of_toNat_eq ?_⟩
  split at h <;> cases h <;> assumption

@[simp] theorem decode_encode (i : Instr) : decode (encode i) = .command i := by
  cases i <;> rfl

/-- R82: a word decodes to a command exactly when it is that command's word. -/
theorem decode_eq_command_iff {w : Word} {i : Instr} : decode w = .command i ↔ w = encode i := by
  constructor
  · exact fun h => eq_encode_iff.mpr (fields_of_decode h)
  · rintro rfl
    exact decode_encode i

/-- The decoder is total: a word is illegal or it is a command. -/
theorem exists_decode_illegal_iff {w : Word} : (∃ why, decode w = .illegal why) ↔ ∀ i, decode w ≠ .command i := by
  cases decode w <;> simp

/-- A statement about every command is five statements (R82). -/
theorem Instr.forall_iff {p : Instr → Prop} : (∀ i, p i) ↔ p .ldkey ∧ p .enc ∧ p .dec ∧ p .encb ∧ p .decb := by
  constructor
  · exact fun h => ⟨h _, h _, h _, h _, h _⟩
  · rintro ⟨hldkey, henc, hdec, hencb, hdecb⟩ (_ | _ | _ | _ | _) <;> assumption

/-- R82: the command numbers are 1 to 5. -/
theorem forall_ne_opOf_iff {b : Byte} : (∀ i, b ≠ opOf i) ↔ b = 0 ∨ 6 ≤ b.toNat := by
  simp only [Instr.forall_iff, opOf]
  bv_omega

end Sys2Proof

namespace Sys2Proof.Machine

/-- R84: the illegal words by their fields. -/
theorem decode_illegal_iff_fields (w : Word) :
    (∃ why, decode w = .illegal why) ↔ cmdRsv w ≠ 0 ∨ cmdOp w = 0 ∨ 6 ≤ (cmdOp w).toNat := by
  simp only [exists_decode_illegal_iff, ne_eq, decode_eq_command_iff, eq_encode_iff, not_and_or, forall_or_left,
    ← forall_ne_opOf_iff]

/-- R84: the illegal words by the list of the others. -/
theorem decode_illegal_iff_ne (w : Word) :
    (∃ why, decode w = .illegal why) ↔ w ≠ 1 ∧ w ≠ 2 ∧ w ≠ 3 ∧ w ≠ 4 ∧ w ≠ 5 := by
  simp only [exists_decode_illegal_iff, ne_eq, decode_eq_command_iff]
  exact Instr.forall_iff

/-- R80: a host write to `CMD` issues its word. -/
theorem performAction_command (w : Word) (s : State) : performAction (.command w) s = issue w s :=
  performAction_write_reg .cmd w s

/-- R84: issuing an illegal word writes the error code and nothing else. -/
theorem issue_of_illegal {w : Word} {why : IllegalWord} (h : decode w = .illegal why) (s : State) :
    issue w s = .next { s with err := .illegalCommand } := by
  rw [issue, h]
  rfl

/-- Settles O2: a word decodes to a command exactly when it is the command's word. -/
theorem decodeEncodeAgree : Obligations.DecodeEncodeAgree := by
  unfold Obligations.DecodeEncodeAgree
  exact ⟨fun i _ => decode_encode i, fun _ _ h => (decode_eq_command_iff.mp h).symm,
    fun _ => ⟨decode_eq_command_iff, decode_eq_command_iff, decode_eq_command_iff, decode_eq_command_iff,
      decode_eq_command_iff⟩⟩

/-- Settles O3: a word is illegal when it is no command's, and issuing it only raises the error. -/
theorem illegalWordsOnlySetErr : Obligations.IllegalWordsOnlySetErr := by
  unfold Obligations.IllegalWordsOnlySetErr
  exact ⟨rfl, fun w => ⟨decode_illegal_iff_fields w, decode_illegal_iff_ne w,
    fun ⟨_, h⟩ s => (performAction_command w s).trans (issue_of_illegal h s)⟩⟩

end Sys2Proof.Machine
end

section
/-!
The key schedule and the command that loads it (R120 to R128). A key reaches its schedule only through the `PC1` stage, whose table
names no parity position. `LDKEY` is described by one equation for each of its three answers, and of the host's actions only it
and reset touch `KEY`, `SK` and `KEY_VALID`.
-/

namespace Sys2Proof.Machine

/-! ### Parity bits (R101, R120, R124) -/

/-- R123: the schedule depends on the key through its `PC1` stage alone. -/
theorem keySchedule_eq_of_permute_pc1_eq {k k' : Block} (h : permute pc1 k = permute pc1 k') :
    keySchedule k = keySchedule k' := by
  have hstage : pc1Stage k = pc1Stage k' := by rw [pc1Stage, pc1Stage, h]
  apply Vector.toList_inj.mp
  rw [keySchedule_toList, keySchedule_toList, hstage]

/-- R13: `AND` acts on each position alone. -/
theorem pos_and {n : Nat} (v w : BitVec n) (p : Nat) : pos (v &&& w) p = (pos v p && pos w p) := BitVec.getLsbD_and

/-- R101: every entry of `PC1` names a position outside bit 0 of the key's bytes. -/
theorem pc1_names_no_parity (j : Fin 56) : pos (0xFEFEFEFEFEFEFEFE : Block) pc1[j] = true := by
  revert j
  decide

/-- R120: `PC1` drops the parity bits. -/
theorem permute_pc1_of_parity {m : Block} (h : m &&& 0xFEFEFEFEFEFEFEFE = 0) : permute pc1 m = 0 := by
  apply BitVec.eq_of_getLsbD_eq
  intro i hi
  have hmask : pos (0xFEFEFEFEFEFEFEFE : Block) pc1[56 - 1 - i] = true := pc1_names_no_parity ⟨56 - 1 - i, by omega⟩
  have hbit : pos (m &&& 0xFEFEFEFEFEFEFEFE) pc1[56 - 1 - i] = false := by
    rw [h]
    exact BitVec.getLsbD_zero
  rw [pos_and, hmask, Bool.and_true] at hbit
  rw [permute_getLsbD pc1 m i hi]
  exact hbit.trans BitVec.getLsbD_zero.symm

/-- R124: changing parity bits leaves the schedule as it is. -/
theorem keySchedule_xor_parity (k : Block) {m : Block} (h : m &&& 0xFEFEFEFEFEFEFEFE = 0) :
    keySchedule k = keySchedule (k ^^^ m) := by
  apply keySchedule_eq_of_permute_pc1_eq
  rw [permute_xor, permute_pc1_of_parity h]
  exact BitVec.xor_zero.symm

/-- R124: the rule's two keys differ in one parity bit. -/
theorem keySchedule_testKeys : keySchedule 0x544553544B455931 = keySchedule 0x544553544B455930 :=
  keySchedule_xor_parity 0x544553544B455931 (m := 1) (by decide)

/-- R127's example: the first and the last subkey of `TESTKEY1`. -/
theorem keySchedule_testKey_ends :
    (keySchedule 0x544553544B455931)[0] = 0xB092226D6050 ∧ (keySchedule 0x544553544B455931)[15] = 0xE092A2801BE1 := by
  decide +kernel

/-! ### The answers of `LDKEY` (R126, R127) -/

/-- R126: the key operand is the eight bytes of `IN[0..8)`. -/
theorem keyOperand_eq_some {s : State} {bs : List Byte} :
    s.keyOperand = some bs ↔ bs.length = 8 ∧ ∀ i, i < 8 → s.inBuf.read i = bs[i]? := by
  simpa [State.keyOperand] using Memory.readBytes_eq_some (m := s.inBuf) (i := 0) (n := 8) (bs := bs)

/-- R126: the key operand is missing when one of its bytes is. -/
theorem keyOperand_eq_none {s : State} : s.keyOperand = none ↔ ∃ i, i < 8 ∧ s.inBuf.read i = none := by
  simpa [State.keyOperand] using Memory.readBytes_eq_none (m := s.inBuf) (i := 0) (n := 8)

/-- R127: a wrong length is an error, found before any byte of `IN` is read. -/
theorem exec_ldkey_of_inLen_ne {s : State} (h : s.inLen ≠ 8) : exec .ldkey s = .next (s.setErr .invalidKeyLength) :=
  if_pos h

/-- R126: with a whole key in `IN`, `LDKEY` loads it. -/
theorem exec_ldkey_of_keyOperand {s : State} {bs : List Byte} (hlen : s.inLen = 8) (hkey : s.keyOperand = some bs) :
    exec .ldkey s = .next ((s.loadKey (blk bs) (keySchedule (blk bs))).setErr .none) := by
  rw [exec, execLdkey, if_neg (not_not.mpr hlen), hkey]

/-- R126, R220: an unwritten byte in the key is a fault. -/
theorem exec_ldkey_of_unwritten {s : State} (hlen : s.inLen = 8) (hkey : s.keyOperand = none) :
    exec .ldkey s = .fault .unwrittenRead := by
  rw [exec, execLdkey, if_neg (not_not.mpr hlen), hkey]

/-- Settles O9: the three answers of `LDKEY`, with the key operand read off the cells of `IN`. -/
theorem ldkeyLoadsKeyAndSchedule : Obligations.LdkeyLoadsKeyAndSchedule := by
  unfold Obligations.LdkeyLoadsKeyAndSchedule
  exact ⟨decode_encode .ldkey, rfl, fun _ => exec_ldkey_of_inLen_ne,
    fun _ _ hlen hbs hread => exec_ldkey_of_keyOperand hlen (keyOperand_eq_some.mpr ⟨hbs, hread⟩),
    fun _ hlen hnone => exec_ldkey_of_unwritten hlen (keyOperand_eq_none.mpr hnone),
    by decide, keySchedule_testKey_ends⟩

/-- Settles O37: parity bits do not pass `PC1`, and `LDKEY` checks nothing but the length and that the bytes are written. -/
theorem parityIsIgnored : Obligations.ParityIsIgnored := by
  unfold Obligations.ParityIsIgnored
  refine ⟨fun k _ => keySchedule_xor_parity k, fun s bs hlen hbs hread => ?_, keySchedule_testKeys, fun b forward => ?_⟩
  · exact ⟨_, exec_ldkey_of_keyOperand hlen (keyOperand_eq_some.mpr ⟨hbs, hread⟩), rfl, rfl⟩
  · rw [keySchedule_testKeys]

/-! ### What changes the key (R128) -/

/-- The state `t` holds the key of `s`: `KEY`, `SK[0..15]` and `KEY_VALID` are the same. -/
def SameKey (s t : State) : Prop := t.key = s.key ∧ t.sk = s.sk ∧ t.keyValid = s.keyValid

/-- R128: a successful `LDKEY` leaves a key together with its whole schedule. -/
theorem exec_ldkey_succeeds {s t : State} (h : exec .ldkey s = .next t) (herr : t.err = .none) :
    ∃ k, t.key = some k ∧ t.sk = heldSchedule (keySchedule k) ∧ t.keyValid = true := by
  rcases execLdkey_cases h with ⟨-, rfl⟩ | ⟨-, bs, -, rfl⟩
  · simp at herr
  · exact ⟨blk bs, rfl, rfl, rfl⟩

/-- The block commands write `DOUT` and `STATUS.ERR`. -/
theorem sameKey_of_runBlock {c : Instr} {f : Bool} {s t : State} (hc : c = .encb ∨ c = .decb)
    (h : runBlock c f s = .next t) : SameKey s t := by
  rcases runBlock_cases hc h with ⟨-, rfl⟩ | ⟨-, b, sk, -, -, rfl⟩
  · exact ⟨rfl, rfl, rfl⟩
  · exact ⟨rfl, rfl, rfl⟩

/-- R128: no command but `LDKEY` changes the key. -/
theorem sameKey_of_exec {i : Instr} {s t : State} (hi : i ≠ .ldkey) (h : exec i s = .next t) : SameKey s t := by
  cases i with
  | ldkey => exact absurd rfl hi
  | enc =>
    rcases execEnc_cases h with ⟨-, rfl⟩ | ⟨-, -, rfl⟩ | ⟨-, -, p, sk, -, -, rfl⟩
    · exact ⟨rfl, rfl, rfl⟩
    · exact ⟨rfl, rfl, rfl⟩
    · exact ⟨rfl, rfl, rfl⟩
  | dec =>
    rcases execDec_cases h with ⟨-, rfl⟩ | ⟨-, -, rfl⟩ | ⟨-, -, -, rfl⟩ |
      ⟨-, -, -, c, sk, -, -, ⟨e, -, rfl⟩ | ⟨p, -, rfl⟩⟩
    · exact ⟨rfl, rfl, rfl⟩
    · exact ⟨rfl, rfl, rfl⟩
    · exact ⟨rfl, rfl, rfl⟩
    · exact ⟨rfl, rfl, rfl⟩
    · exact ⟨rfl, rfl, rfl⟩
  | encb => exact sameKey_of_runBlock (.inl rfl) h
  | decb => exact sameKey_of_runBlock (.inr rfl) h

/-- R128: no word but that of `LDKEY` changes the key when it is issued. -/
theorem sameKey_of_issue {w : Word} {s t : State} (hw : w ≠ encode .ldkey) (h : issue w s = .next t) : SameKey s t := by
  cases hd : decode w with
  | command i =>
    rw [issue, hd] at h
    refine sameKey_of_exec ?_ h
    rintro rfl
    exact hw (decode_eq_command_iff.mp hd)
  | illegal why =>
    rw [issue_of_illegal hd] at h
    cases h
    exact ⟨rfl, rfl, rfl⟩

/-- R128: no host action but the write of `LDKEY`'s word to `CMD` and reset changes the key. -/
theorem sameKey_of_performAction {a : HostAction} {s t : State} (h : performAction a s = .next t)
    (hcmd : a ≠ .command (encode .ldkey)) (hreset : a ≠ .reset) : SameKey s t := by
  cases a with
  | write width off v =>
    rcases hostWrite_cases h with ⟨hloc, rfl, hissue⟩ | ⟨-, -, rfl⟩ | ⟨-, -, rfl⟩ | ⟨-, -, rfl⟩ | ⟨i, -, -, rfl⟩
    · obtain rfl : off = 0x0000 := locate_reg.mp hloc
      rw [BitVec.setWidth_eq] at hissue
      refine sameKey_of_issue ?_ hissue
      rintro rfl
      exact hcmd rfl
    · exact ⟨rfl, rfl, rfl⟩
    · exact ⟨rfl, rfl, rfl⟩
    · exact ⟨rfl, rfl, rfl⟩
    · exact ⟨rfl, rfl, rfl⟩
  | read width off =>
    obtain ⟨v, rfl⟩ := hostRead_cases h
    exact ⟨rfl, rfl, rfl⟩
  | reset => exact absurd rfl hreset

/-- Settles O21: a successful `LDKEY` writes all three registers, and every other action but reset leaves them. -/
theorem onlyLdkeyAndResetChangeKey : Obligations.OnlyLdkeyAndResetChangeKey := by
  unfold Obligations.OnlyLdkeyAndResetChangeKey
  exact ⟨fun _ _ => exec_ldkey_succeeds, fun _ _ _ => sameKey_of_performAction⟩

end Sys2Proof.Machine
end

section
/-!
The Feistel round (R146) and its inverse (R147): the new left half is the old right half, so the same value of `F` is
mixed in by both rounds and cancels.
-/

namespace Sys2Proof.Machine

/-- R146: the right half moves to the left. -/
@[simp] theorem feistelRound_fst (lr : Half × Half) (k : Subkey) : (feistelRound lr k).1 = lr.2 := rfl

/-- R146: the left half, mixed with `F` of the right one, moves to the right. -/
@[simp] theorem feistelRound_snd (lr : Half × Half) (k : Subkey) : (feistelRound lr k).2 = lr.1 ^^^ roundF lr.2 k := rfl

/-- R147: mixing `F` of the new left half into the new right half gives the old left half back. -/
theorem feistelRound_snd_xor_roundF_fst (lr : Half × Half) (k : Subkey) :
    (feistelRound lr k).2 ^^^ roundF (feistelRound lr k).1 k = lr.1 := by
  rw [feistelRound_fst, feistelRound_snd, xor_cancel_right]

/-- R147: a round between two swaps undoes the round under the same subkey. -/
theorem swap_feistelRound_swap_feistelRound (lr : Half × Half) (k : Subkey) :
    (feistelRound (feistelRound lr k).swap k).swap = lr :=
  Prod.ext (feistelRound_snd_xor_roundF_fst lr k) (feistelRound_fst lr k)

/-- Settles O39: the halves of the result give the old ones back, one by one and as the swapped round. -/
theorem roundIsInvertedByItself : Obligations.RoundIsInvertedByItself := by
  unfold Obligations.RoundIsInvertedByItself
  intro l r k
  exact ⟨(feistelRound_fst (l, r) k).symm, (feistelRound_snd_xor_roundF_fst (l, r) k).symm,
    swap_feistelRound_swap_feistelRound (l, r) k⟩

end Sys2Proof.Machine
end

section
/-!
The inverse law of the transform (R168): the final permutation inverts the initial one (R108), and the rounds run again in the
reverse order on the swapped halves undo themselves (R147).
-/

namespace Sys2Proof.Machine

/-! ### The outer permutations (R107, R108) -/

/-- R13: a value is the list of its positions. -/
theorem eq_of_pos_eq {n : Nat} {v w : BitVec n} (h : ∀ j, j < n → pos v (j + 1) = pos w (j + 1)) : v = w := by
  apply BitVec.eq_of_getLsbD_eq
  intro i hi
  have hpos := h (n - 1 - i) (by omega)
  rwa [pos, pos, show n - (n - 1 - i + 1) = i by omega] at hpos

/-- `T` inverts `S`: the entry of `S` at the position that `T` names at `j` is `j` itself. -/
def InvertsTable {n : Nat} (T S : Vector Nat n) : Prop :=
  ∀ j : Fin n, 1 ≤ T[j] ∧ S[T[j] - 1]? = some (j.val + 1)

/-- R14: a table that inverts another one undoes its permutation. -/
theorem permute_permute_of_invertsTable {n : Nat} {T S : Vector Nat n} (h : InvertsTable T S) (v : BitVec n) :
    permute T (permute S v) = v := by
  apply eq_of_pos_eq
  intro j hj
  obtain ⟨hone, hentry⟩ := h ⟨j, hj⟩
  obtain ⟨hp, hS⟩ := Vector.getElem?_eq_some_iff.mp hentry
  have hT : T[j] = T[j] - 1 + 1 := (Nat.sub_add_cancel hone).symm
  calc pos (permute T (permute S v)) (j + 1)
      = pos (permute S v) (T[j] - 1 + 1) := by rw [permute_pos T _ j hj, ← hT]
    _ = pos v S[T[j] - 1] := permute_pos S v _ hp
    _ = pos v (j + 1) := congrArg (pos v) hS

/-- R108: `FP` undoes `IP`. -/
@[simp] theorem permute_finalPerm_initialPerm (v : Block) : permute finalPerm (permute initialPerm v) = v := by
  refine permute_permute_of_invertsTable ?_ v
  unfold InvertsTable
  decide

/-- R108: `IP` undoes `FP`. -/
@[simp] theorem permute_initialPerm_finalPerm (v : Block) : permute initialPerm (permute finalPerm v) = v := by
  refine permute_permute_of_invertsTable ?_ v
  unfold InvertsTable
  decide

/-- R17: a block is its two halves. -/
theorem extractLsb'_append_extractLsb'_halves (v : Block) : v.extractLsb' 32 32 ++ v.extractLsb' 0 32 = v := by
  rw [BitVec.extractLsb'_append_extractLsb'_eq_extractLsb' (by decide)]
  exact BitVec.extractLsb'_eq_self

/-- The final stage of the swapped initial halves gives the block back. -/
theorem finalStage_swap_initialHalves (b : Block) : finalStage (initialHalves b).swap = b := by
  show permute finalPerm ((permute initialPerm b).extractLsb' 32 32 ++ (permute initialPerm b).extractLsb' 0 32) = b
  rw [extractLsb'_append_extractLsb'_halves, permute_finalPerm_initialPerm]

/-- The initial halves of a final stage are its halves, swapped. -/
theorem initialHalves_finalStage (lr : Half × Half) : initialHalves (finalStage lr) = lr.swap := by
  rw [initialHalves, finalStage, permute_initialPerm_finalPerm, BitVec.extractLsb'_append_eq_left,
    BitVec.extractLsb'_append_eq_right, Prod.swap]

/-! ### The rounds (R161, R162) -/

/-- R147, R162: the rounds under the reversed subkeys, between two swaps, undo the rounds. -/
theorem runRounds_reverse_swap_runRounds (ks : List Subkey) (lr : Half × Half) :
    runRounds ks.reverse (runRounds ks lr).swap = lr.swap := by
  induction ks generalizing lr with
  | nil => rfl
  | cons k ks ih =>
    calc runRounds (k :: ks).reverse (runRounds (k :: ks) lr).swap
        = feistelRound (runRounds ks.reverse (runRounds ks (feistelRound lr k)).swap) k := by
          simp [runRounds]
      _ = feistelRound (feistelRound lr k).swap k := by rw [ih]
      _ = lr.swap := by rw [← Prod.swap_swap (feistelRound _ k), swap_feistelRound_swap_feistelRound]

/-- R161: the other direction uses the subkeys in the reverse order. -/
theorem subkeyOrder_not (sk : Schedule) (forward : Bool) : subkeyOrder sk (!forward) = (subkeyOrder sk forward).reverse := by
  cases forward
  · exact (List.reverse_reverse _).symm
  · rfl

/-- R168: each direction undoes the other. -/
theorem transform_not_transform (b : Block) (sk : Schedule) (forward : Bool) :
    transform (transform b sk forward) sk (!forward) = b := by
  rw [transform, transform, initialHalves_finalStage, subkeyOrder_not, runRounds_reverse_swap_runRounds,
    finalStage_swap_initialHalves]

/-- Settles O40: one law covers both directions. -/
theorem transformInverse : Obligations.TransformInverse := by
  unfold Obligations.TransformInverse
  exact fun b sk => ⟨transform_not_transform b sk true, transform_not_transform b sk false⟩

end Sys2Proof.Machine
end

section
/-!
The complementation law (R169). Permuting, rotating and splitting a value commute with its complement, so each stage of the key schedule
and of the transform turns complemented halves into complemented halves; in `F` the two complements cancel at the key mixing (R141).
-/

namespace Sys2Proof.Machine

/-! ### The bit primitives (R14, R15) -/

/-- R14: a permutation that takes all ones to all ones, so that each of its entries names a position, commutes with complement. -/
theorem permute_not {m n : Nat} {T : Vector Nat m} (h : permute T (BitVec.allOnes n) = BitVec.allOnes m) (v : BitVec n) :
    permute T (~~~v) = ~~~(permute T v) := by
  rw [← BitVec.xor_allOnes, permute_xor, h, BitVec.xor_allOnes]

/-- A part of a complemented value is the complement of the part. -/
theorem extractLsb'_not {w start len : Nat} (h : start + len ≤ w) (v : BitVec w) :
    (~~~v).extractLsb' start len = ~~~(v.extractLsb' start len) := by
  apply BitVec.eq_of_getLsbD_eq
  intro i hi
  have hw : start + i < w := by omega
  simp [hi, hw]

/-- R15: rotation commutes with complement. -/
theorem rotl28_not {s : Nat} (h : s < 28) (x : KeyHalf) : rotl28 (~~~x) s = ~~~(rotl28 x s) := by
  rw [rotl28_eq_rotateLeft _ _ h, rotl28_eq_rotateLeft _ _ h]
  apply BitVec.eq_of_getLsbD_eq
  intro i hi
  by_cases hs : i < s
  · simp [Nat.mod_eq_of_lt h, hi, hs]
  · simp [Nat.mod_eq_of_lt h, hi, hs]

/-- Both halves of a pair, complemented. -/
def complementHalves {n : Nat} (p : BitVec n × BitVec n) : BitVec n × BitVec n := (~~~p.1, ~~~p.2)

/-! ### The key schedule (R120 to R123) -/

/-- R120: the halves of a complemented key. -/
theorem pc1Stage_not (k : Block) : pc1Stage (~~~k) = complementHalves (pc1Stage k) := by
  rw [pc1Stage, permute_not (by decide), extractLsb'_not (by decide), extractLsb'_not (by decide)]
  rfl

/-- R121: the rotations of complemented halves. -/
theorem rotateHalves_complementHalves (cd : KeyHalf × KeyHalf) {s : Nat} (h : s < 28) :
    rotateHalves (complementHalves cd) s = complementHalves (rotateHalves cd s) :=
  Prod.ext (rotl28_not h cd.1) (rotl28_not h cd.2)

/-- R122: the subkey of complemented halves. -/
theorem pc2Stage_complementHalves (cd : KeyHalf × KeyHalf) : pc2Stage (complementHalves cd) = ~~~(pc2Stage cd) := by
  rw [pc2Stage, complementHalves, ← BitVec.not_append, permute_not (by decide)]
  rfl

/-- R123: the subkeys of complemented halves. -/
theorem subkeysFrom_complementHalves (cd : KeyHalf × KeyHalf) {ss : List Nat} (h : ∀ s ∈ ss, s < 28) :
    subkeysFrom (complementHalves cd) ss = (subkeysFrom cd ss).map (~~~·) := by
  induction ss generalizing cd with
  | nil => rfl
  | cons s ss ih =>
    obtain ⟨hs, hss⟩ := List.forall_mem_cons.mp h
    rw [subkeysFrom, subkeysFrom, rotateHalves_complementHalves cd hs, pc2Stage_complementHalves, ih _ hss, List.map_cons]

/-- R169: the schedule of a complemented key is the complemented schedule. -/
theorem keySchedule_not (k : Block) : keySchedule (~~~k) = (keySchedule k).map (~~~·) := by
  apply Vector.toList_inj.mp
  rw [Vector.toList_map, keySchedule_toList, keySchedule_toList, pc1Stage_not,
    subkeysFrom_complementHalves _ (by decide)]

/-! ### The transform (R140 to R146, R160 to R165) -/

/-- R169: complementing both arguments of `F` changes nothing. -/
theorem roundF_not_not (r : Half) (k : Subkey) : roundF (~~~r) (~~~k) = roundF r k := by
  have hmix : mixKey (expandHalf (~~~r)) (~~~k) = mixKey (expandHalf r) k := by
    rw [expandHalf, permute_not (by decide), mixKey, ← BitVec.not_xor_left, ← BitVec.not_xor_right, BitVec.not_not]
    rfl
  rw [roundF, hmix, roundF]

/-- R146: a round on complemented halves under the complemented subkey. -/
theorem feistelRound_complementHalves (lr : Half × Half) (k : Subkey) :
    feistelRound (complementHalves lr) (~~~k) = complementHalves (feistelRound lr k) := by
  rw [feistelRound, complementHalves, roundF_not_not, ← BitVec.not_xor_left]
  rfl

/-- R162: the rounds on complemented halves under the complemented subkeys. -/
theorem runRounds_complementHalves (ks : List Subkey) (lr : Half × Half) :
    runRounds (ks.map (~~~·)) (complementHalves lr) = complementHalves (runRounds ks lr) := by
  induction ks generalizing lr with
  | nil => rfl
  | cons k ks ih =>
    show runRounds (ks.map (~~~·)) (feistelRound (complementHalves lr) (~~~k)) = _
    rw [feistelRound_complementHalves, ih]
    rfl

/-- R160: the initial halves of a complemented block. -/
theorem initialHalves_not (b : Block) : initialHalves (~~~b) = complementHalves (initialHalves b) := by
  rw [initialHalves, permute_not (by decide), extractLsb'_not (by decide), extractLsb'_not (by decide)]
  rfl

/-- R163, R164: the final stage of complemented halves. -/
theorem finalStage_complementHalves (lr : Half × Half) : finalStage (complementHalves lr) = ~~~(finalStage lr) := by
  rw [finalStage, complementHalves, ← BitVec.not_append, permute_not (by decide)]
  rfl

/-- R161: the order of a complemented schedule. -/
theorem subkeyOrder_map_not (sk : Schedule) (forward : Bool) :
    subkeyOrder (sk.map (~~~·)) forward = (subkeyOrder sk forward).map (~~~·) := by
  cases forward
  · exact (congrArg List.reverse Vector.toList_map).trans List.map_reverse.symm
  · exact Vector.toList_map

/-- R169: complementing block and schedule complements the result, in both directions. -/
theorem transform_not (b : Block) (sk : Schedule) (forward : Bool) :
    transform (~~~b) (sk.map (~~~·)) forward = ~~~(transform b sk forward) := by
  rw [transform, initialHalves_not, subkeyOrder_map_not, runRounds_complementHalves, finalStage_complementHalves,
    transform]

/-- R166's example, the classic key's known answer. -/
theorem transform_classicKey_forward :
    transform 0x0123456789ABCDEF (keySchedule 0x133457799BBCDFF1) true = 0x85E813540F0AB405 := by
  decide +kernel

/-- R169's example is the complement of R166's. -/
theorem transform_complemented_classicKey :
    transform 0xFEDCBA9876543210 (keySchedule 0xECCBA8866443200E) true = 0x7A17ECABF0F54BFA := by
  have hlaw := transform_not 0x0123456789ABCDEF (keySchedule 0x133457799BBCDFF1) true
  rw [← keySchedule_not, transform_classicKey_forward] at hlaw
  exact hlaw

/-- Settles O41: the law for the key's schedule, which is the complemented one, and the steps it rests on. -/
theorem complementationLaw : Obligations.ComplementationLaw := by
  unfold Obligations.ComplementationLaw
  refine ⟨fun k b => ?_, fun k i => ?_, roundF_not_not, transform_complemented_classicKey, by decide⟩
  · rw [keySchedule_not, transform_not]
  · rw [keySchedule_not, Fin.getElem_fin, Vector.getElem_map, Fin.getElem_fin]

end Sys2Proof.Machine
end

section
/-!
The block commands (R166, R167): the three answers of the operation they share, and what a second block command makes of the first
one's answer.
-/

namespace Sys2Proof.Machine

/-- R166, R167: the block in `DIN` is there when both halves are. -/
theorem blockOperand_of_din {s : State} {hi lo : Word} (hhi : s.dinHi = some hi) (hlo : s.dinLo = some lo) :
    s.blockOperand = some (hi ++ lo) :=
  blockOperand_eq_some.mpr ⟨hi, lo, hhi, hlo, rfl⟩

/-- R166, R167: the operand is missing when a half of `DIN` is. -/
theorem blockOperand_eq_none {s : State} : s.blockOperand = none ↔ s.dinHi = none ∨ s.dinLo = none := by
  unfold State.blockOperand
  cases s.dinHi <;> cases s.dinLo <;> simp

/-- R212, R214: without a key a block command fails and leaves `DOUT` without value. -/
theorem runBlock_of_noKey {c : Instr} (hc : c = .encb ∨ c = .decb) (forward : Bool) {s : State} (hkey : s.keyValid = false) :
    runBlock c forward s = .next (s.setErr .noKey).invalidateDout := by
  rw [runBlock, if_pos hkey, raiseError_eq]
  rcases hc with rfl | rfl <;> rfl

/-- R166, R167: with a key and a block, a block command transforms the block into `DOUT`. -/
theorem runBlock_of_operands (c : Instr) (forward : Bool) {s : State} {b : Block} {sk : Schedule}
    (hblock : s.blockOperand = some b) (hkey : s.keyValid = true) (hsk : s.sk = heldSchedule sk) :
    runBlock c forward s = .next ((s.setDout (transform b sk forward)).setErr .none) := by
  rw [runBlock, if_neg (by simp [hkey]), hblock, scheduleOperand_of_held hsk]

/-- R220: with a key and an unwritten half of `DIN`, a block command faults. -/
theorem runBlock_of_unwritten (c : Instr) (forward : Bool) {s : State} (hkey : s.keyValid = true)
    (hdin : s.dinHi = none ∨ s.dinLo = none) : runBlock c forward s = .fault .unwrittenRead := by
  rw [runBlock, if_neg (by simp [hkey]), blockOperand_eq_none.mpr hdin]

/-- R166: a block command reads nothing it writes, so a second one changes nothing. -/
theorem runBlock_repeat (c : Instr) (forward : Bool) {s : State} {b : Block} {sk : Schedule}
    (hblock : s.blockOperand = some b) (hkey : s.keyValid = true) (hsk : s.sk = heldSchedule sk) :
    runBlock c forward ((s.setDout (transform b sk forward)).setErr .none) =
      .next ((s.setDout (transform b sk forward)).setErr .none) :=
  runBlock_of_operands (s := (s.setDout (transform b sk forward)).setErr .none) c forward hblock hkey hsk

/-- What a host does that reads `DOUT` and writes it to `DIN`. -/
def State.moveDoutToDin (s : State) : State := { s with dinHi := s.doutHi, dinLo := s.doutLo }

/-- R26: a block in `DOUT`, by its halves. -/
theorem setDout_append (s : State) (hi lo : Word) : s.setDout (hi ++ lo) = { s with doutHi := some hi, doutLo := some lo } := by
  rw [State.setDout, BitVec.extractLsb'_append_eq_left, BitVec.extractLsb'_append_eq_right]

/-- R26: a block command's result, moved to `DIN`, is the next one's operand. -/
theorem blockOperand_moveDoutToDin (s : State) (v : Block) (e : ErrCode) :
    ((s.setDout v).setErr e).moveDoutToDin.blockOperand = some v :=
  (blockOperand_of_din rfl rfl).trans (congrArg some (extractLsb'_append_extractLsb'_halves v))

/-- R167, R168: after a successful `ENCB`, `DECB` of its result gives the block it had in `DIN`. -/
theorem exec_decb_of_exec_encb {s t : State} (h : exec .encb s = .next t) (herr : t.err = .none) :
    exec .decb t.moveDoutToDin = .next { t.moveDoutToDin with doutHi := s.dinHi, doutLo := s.dinLo } := by
  rcases runBlock_cases (.inl rfl) h with ⟨-, rfl⟩ | ⟨hkey, b, sk, hblock, hsched, rfl⟩
  · simp at herr
  · obtain ⟨hi, lo, hhi, hlo, rfl⟩ := blockOperand_eq_some.mp hblock
    have hinv : transform (transform (hi ++ lo) sk true) sk false = hi ++ lo := transform_not_transform _ sk true
    have hdecb := runBlock_of_operands .decb false (blockOperand_moveDoutToDin s (transform (hi ++ lo) sk true) .none)
      hkey (held_of_scheduleOperand hsched)
    rw [hinv, setDout_append, ← hhi, ← hlo] at hdecb
    exact hdecb

/-- R167's example undoes R166's. -/
theorem transform_classicKey_backward :
    transform 0x85E813540F0AB405 (keySchedule 0x133457799BBCDFF1) false = 0x0123456789ABCDEF := by
  rw [← transform_classicKey_forward]
  exact transform_not_transform _ _ true

/-- Settles O10: the three answers of a block command, forward, and the answer to its repetition. -/
theorem encbEncryptsDin : Obligations.EncbEncryptsDin := by
  unfold Obligations.EncbEncryptsDin
  refine ⟨decode_encode .encb, rfl, fun _ => runBlock_of_noKey (.inl rfl) true, fun s sk hi lo hkey hsk hhi hlo => ?_,
    fun _ => runBlock_of_unwritten .encb true, transform_classicKey_forward⟩
  have hblock := blockOperand_of_din hhi hlo
  exact ⟨_, runBlock_of_operands .encb true hblock hkey hsk, rfl, runBlock_repeat .encb true hblock hkey hsk⟩

/-- Settles O11: the three answers of a block command, backward, and the inverse law for what follows an `ENCB`. -/
theorem decbDecryptsDin : Obligations.DecbDecryptsDin := by
  unfold Obligations.DecbDecryptsDin
  exact ⟨decode_encode .decb, rfl, fun _ => runBlock_of_noKey (.inr rfl) false,
    fun _ _ _ _ hkey hsk hhi hlo => runBlock_of_operands .decb false (blockOperand_of_din hhi hlo) hkey hsk,
    fun _ => runBlock_of_unwritten .decb false, fun _ _ => exec_decb_of_exec_encb, transform_classicKey_backward⟩

end Sys2Proof.Machine
end

section
/-!
The framing functions (R180 to R184). A sequence of whole blocks is the joining of its blocks, so what is said of such a sequence is
proved by induction over a list of blocks; padding always gives such a sequence.
-/

namespace Sys2Proof.Machine

/-! ### Splitting and joining (R181) -/

@[simp] theorem unblk_length (v : Block) : (unblk v).length = 8 := rfl

/-- R17, R50: `unblk` undoes `blk`. -/
theorem unblk_blk {bs : List Byte} (h : bs.length = 8) : unblk (blk bs) = bs := by
  match bs, h with
  | [s0, s1, s2, s3, s4, s5, s6, s7], _ =>
    simp only [blk, unblk, List.cons.injEq, and_true]
    refine ⟨?_, ?_, ?_, ?_, ?_, ?_, ?_, BitVec.extractLsb'_append_eq_right⟩
    · repeat rw [BitVec.extractLsb'_append_eq_of_le (w := 8) (by decide)]
      exact BitVec.extractLsb'_eq_self
    all_goals
      repeat rw [BitVec.extractLsb'_append_eq_of_le (w := 8) (by decide)]
      exact BitVec.extractLsb'_append_eq_right

/-- R17, R50: `blk` undoes `unblk`. -/
theorem blk_unblk (v : Block) : blk (unblk v) = v := by
  simp only [blk, unblk]
  repeat rw [BitVec.extractLsb'_append_extractLsb'_eq_extractLsb' (by decide)]
  exact BitVec.extractLsb'_eq_self

/-- R181: the first block of a sequence is packed from its first eight bytes. -/
theorem splitBlocks_append {bs : List Byte} (h : bs.length = 8) (rest : List Byte) :
    splitBlocks (bs ++ rest) = blk bs :: splitBlocks rest := by
  match bs, h with
  | [_, _, _, _, _, _, _, _], _ => rfl

theorem joinBlocks_eq_flatMap (vs : List Block) : joinBlocks vs = vs.flatMap unblk := by
  induction vs with
  | nil => rfl
  | cons v vs ih => rw [joinBlocks, ih, List.flatMap_cons]

theorem joinBlocks_length (vs : List Block) : (joinBlocks vs).length = 8 * vs.length := by
  induction vs with
  | nil => rfl
  | cons v vs ih =>
    rw [joinBlocks, List.length_append, unblk_length, ih, List.length_cons]
    omega

/-- R181: splitting undoes joining. -/
@[simp] theorem splitBlocks_joinBlocks (vs : List Block) : splitBlocks (joinBlocks vs) = vs := by
  induction vs with
  | nil => rfl
  | cons v vs ih => rw [joinBlocks, splitBlocks_append (unblk_length v), blk_unblk, ih]

/-- R181: a sequence of `n` whole blocks is the joining of `n` blocks. -/
theorem exists_eq_joinBlocks {n : Nat} {q : List Byte} (h : q.length = 8 * n) : ∃ vs, q = joinBlocks vs := by
  induction n generalizing q with
  | zero => exact ⟨[], List.length_eq_zero_iff.mp h⟩
  | succ n ih =>
    have hhead : (q.take 8).length = 8 := by rw [List.length_take]; omega
    have htail : (q.drop 8).length = 8 * n := by rw [List.length_drop]; omega
    obtain ⟨vs, hvs⟩ := ih htail
    exact ⟨blk (q.take 8) :: vs, by rw [joinBlocks, unblk_blk hhead, ← hvs, List.take_append_drop]⟩

/-- R181: joining undoes splitting. -/
theorem joinBlocks_splitBlocks {q : List Byte} (h : q.length % 8 = 0) : joinBlocks (splitBlocks q) = q := by
  obtain ⟨vs, rfl⟩ := exists_eq_joinBlocks (Nat.mul_div_cancel' (Nat.dvd_of_mod_eq_zero h)).symm
  rw [splitBlocks_joinBlocks]

/-- R181: bytes `8j` to `8j+7` of a joining are the bytes of block `j`. -/
theorem take_drop_joinBlocks (vs : List Block) (j : Nat) (h : j < vs.length) :
    ((joinBlocks vs).drop (8 * j)).take 8 = unblk vs[j] := by
  induction vs generalizing j with
  | nil => exact absurd h (Nat.not_lt_zero j)
  | cons v vs ih =>
    cases j with
    | zero => exact List.take_left' (unblk_length v)
    | succ j =>
      have hdrop : 8 * (j + 1) = (unblk v).length + 8 * j := by rw [unblk_length]; omega
      rw [joinBlocks, hdrop, List.drop_length_add_append, List.getElem_cons_succ]
      exact ih j (Nat.lt_of_succ_lt_succ h)

/-- R181: block `j` packs bytes `8j` to `8j+7`. -/
theorem splitBlocks_getElem? {q : List Byte} (h : q.length % 8 = 0) {j : Nat} (hj : j < q.length / 8) :
    (splitBlocks q)[j]? = some (blk ((q.drop (8 * j)).take 8)) := by
  obtain ⟨vs, rfl⟩ := exists_eq_joinBlocks (Nat.mul_div_cancel' (Nat.dvd_of_mod_eq_zero h)).symm
  have hlt : j < vs.length := by rw [joinBlocks_length] at hj; omega
  rw [splitBlocks_joinBlocks, take_drop_joinBlocks vs j hlt, blk_unblk, List.getElem?_eq_getElem hlt]

/-- R181: there are `len(q)/8` blocks. -/
theorem splitBlocks_length {q : List Byte} (h : q.length % 8 = 0) : (splitBlocks q).length = q.length / 8 := by
  have hlen := joinBlocks_length (splitBlocks q)
  rw [joinBlocks_splitBlocks h] at hlen
  omega

/-- Settles O44: the count, the content and the joining of the blocks of a sequence of whole blocks. -/
theorem splitAndJoin : Obligations.SplitAndJoin := by
  unfold Obligations.SplitAndJoin
  exact ⟨fun q h => ⟨splitBlocks_length h, fun j => splitBlocks_getElem? h, joinBlocks_splitBlocks h⟩,
    joinBlocks_eq_flatMap⟩

/-! ### Padding and unpadding (R180, R182) -/

/-- R180: the count is in 1..8. -/
theorem padCount_bounds (len : Nat) : 1 ≤ padCount len ∧ padCount len ≤ 8 := by
  unfold padCount
  omega

/-- R180: padding fills the payload up to the next multiple of 8. -/
theorem pad_length (p : List Byte) : (pad p).length = 8 * (p.length / 8 + 1) := by
  rw [pad, List.length_append, List.length_replicate, padCount]
  omega

/-- Settles O42: `padCount` is the rule's `n`, and the examples evaluate. -/
theorem padAppendsCount : Obligations.PadAppendsCount := by
  unfold Obligations.PadAppendsCount
  refine ⟨fun p => ?_, by decide, by decide, by decide⟩
  obtain ⟨hlo, hhi⟩ := padCount_bounds p.length
  refine ⟨padCount p.length, hlo, hhi, rfl, rfl, pad_length p, fun h => ?_, fun h => ?_⟩
  · rw [padCount, h]
  · rw [padCount, h]

/-- R182: `UNPAD` strips `n` bytes of value `n`, for every `n` in 1..8. -/
theorem unpad_append_replicate (p : List Byte) {n : Nat} (hlo : 1 ≤ n) (hhi : n ≤ 8) :
    unpad (p ++ List.replicate n (BitVec.ofNat 8 n)) = .ok p := by
  have hlast : lastCount (p ++ List.replicate n (BitVec.ofNat 8 n)) = n := by
    obtain ⟨m, rfl⟩ := Nat.exists_eq_add_of_le' hlo
    rw [lastCount, List.replicate_succ', ← List.append_assoc, List.getLastD_concat, BitVec.toNat_ofNat]
    omega
  have hkept : (p ++ List.replicate n (BitVec.ofNat 8 n)).length - n = p.length := by simp
  have hrange : ¬ (n < 1 ∨ n > 8) := by omega
  simp only [unpad, hlast, hkept, if_neg hrange, List.drop_left, List.take_left, ne_eq, not_true_eq_false, if_false]

/-- R182: what `UNPAD` accepts is its answer followed by `n` bytes of value `n`, with `n` in 1..8. -/
theorem eq_append_of_unpad {q p : List Byte} (h : unpad q = .ok p) :
    ∃ n, 1 ≤ n ∧ n ≤ 8 ∧ q = p ++ List.replicate n (BitVec.ofNat 8 n) := by
  unfold unpad at h
  dsimp only at h
  split_ifs at h with hrange htail
  cases h
  refine ⟨lastCount q, by omega, by omega, ?_⟩
  rw [← not_not.mp htail, List.take_append_drop]

/-- R182: the only error of `UNPAD`. -/
theorem eq_malformedPadding_of_unpad {q : List Byte} {e : ErrCode} (h : unpad q = .error e) : e = .malformedPadding := by
  unfold unpad at h
  dsimp only at h
  split_ifs at h
  · exact (Except.error.inj h).symm
  · exact (Except.error.inj h).symm

/-- R182: `UNPAD(PAD(p)) = p`. -/
theorem unpad_pad (p : List Byte) : unpad (pad p) = .ok p :=
  unpad_append_replicate p (padCount_bounds p.length).1 (padCount_bounds p.length).2

/-! ### Payloads (R183, R184) -/

/-- R183, R184: the blocks of a joining are transformed one by one. -/
theorem transformBlocks_joinBlocks (vs : List Block) (sk : Schedule) (forward : Bool) :
    transformBlocks (joinBlocks vs) sk forward = joinBlocks (vs.map fun v => transform v sk forward) := by
  rw [transformBlocks, splitBlocks_joinBlocks]

/-- R183, R184: transforming keeps the length. -/
theorem transformBlocks_length {q : List Byte} (h : q.length % 8 = 0) (sk : Schedule) (forward : Bool) :
    (transformBlocks q sk forward).length = q.length := by
  rw [transformBlocks, joinBlocks_length, List.length_map, ← joinBlocks_length, joinBlocks_splitBlocks h]

/-- R168: transforming in the other direction gives the sequence back. -/
theorem transformBlocks_not_transformBlocks {q : List Byte} (h : q.length % 8 = 0) (sk : Schedule) (forward : Bool) :
    transformBlocks (transformBlocks q sk forward) sk (!forward) = q := by
  have hinv : (fun v => transform v sk !forward) ∘ (fun v => transform v sk forward) = id :=
    funext fun v => transform_not_transform v sk forward
  rw [transformBlocks, transformBlocks, splitBlocks_joinBlocks, List.map_map, hinv, List.map_id, joinBlocks_splitBlocks h]

/-- R184: the lengths that are no ciphertext's. -/
theorem badCiphertextLength_eq_true {n : Nat} : badCiphertextLength n = true ↔ n = 0 ∨ n % 8 ≠ 0 := by
  simp [badCiphertextLength]

/-- R184: the lengths of ciphertexts. -/
theorem badCiphertextLength_eq_false {n : Nat} : badCiphertextLength n = false ↔ n ≠ 0 ∧ n % 8 = 0 := by
  simp [badCiphertextLength]

theorem pad_length_mod (p : List Byte) : (pad p).length % 8 = 0 := by
  rw [pad_length]
  omega

/-- R189: the length of a ciphertext. -/
theorem encryptPayload_length (p : List Byte) (sk : Schedule) :
    (encryptPayload p sk).length = 8 * (p.length / 8 + 1) := by
  rw [encryptPayload, transformBlocks_length (pad_length_mod p), pad_length]

/-- R184, R189: what `ENCRYPT_PAYLOAD` gives passes the length check of `DECRYPT_PAYLOAD`. -/
theorem badCiphertextLength_encryptPayload (p : List Byte) (sk : Schedule) :
    badCiphertextLength (encryptPayload p sk).length = false := by
  rw [badCiphertextLength_eq_false, encryptPayload_length]
  omega

/-- Settles O45: the ciphertext is as long as the padded payload. -/
theorem ciphertextLength : Obligations.CiphertextLength := by
  unfold Obligations.CiphertextLength
  intro p sk
  rw [encryptPayload_length]
  omega

/-- R184: a sequence of one or more whole blocks is transformed and unpadded. -/
theorem decryptPayload_of_goodLength {ct : List Byte} (h : badCiphertextLength ct.length = false) (sk : Schedule) :
    decryptPayload ct sk = unpad (transformBlocks ct sk false) := by
  rw [decryptPayload, if_neg (by simp [h])]

/-- R188: the round trip of the functions. -/
theorem decryptPayload_encryptPayload (p : List Byte) (sk : Schedule) :
    decryptPayload (encryptPayload p sk) sk = .ok p := by
  have hinv : transformBlocks (encryptPayload p sk) sk false = pad p :=
    transformBlocks_not_transformBlocks (pad_length_mod p) sk true
  rw [decryptPayload_of_goodLength (badCiphertextLength_encryptPayload p sk), hinv, unpad_pad]

/-- R187: a decrypted payload is 1 to 8 bytes shorter than its ciphertext. -/
theorem length_of_decryptPayload {ct p : List Byte} {sk : Schedule} (hlen : badCiphertextLength ct.length = false)
    (h : decryptPayload ct sk = .ok p) : p.length + 1 ≤ ct.length ∧ ct.length ≤ p.length + 8 := by
  rw [decryptPayload_of_goodLength hlen] at h
  obtain ⟨n, hlo, hhi, hq⟩ := eq_append_of_unpad h
  have hcount := transformBlocks_length (badCiphertextLength_eq_false.mp hlen).2 sk false
  rw [hq, List.length_append, List.length_replicate] at hcount
  omega

/-- R184: after the length check, the only error is that of `UNPAD`. -/
theorem eq_malformedPadding_of_decryptPayload {ct : List Byte} {sk : Schedule} {e : ErrCode}
    (hlen : badCiphertextLength ct.length = false) (h : decryptPayload ct sk = .error e) : e = .malformedPadding := by
  rw [decryptPayload_of_goodLength hlen] at h
  exact eq_malformedPadding_of_unpad h

end Sys2Proof.Machine
end

section
/-!
The payload commands (R186, R187): the operand and the result they share, and one equation for each of their answers.
-/

namespace Sys2Proof.Machine

/-! ### The operand and the result -/

/-- R186, R187: the payload is the bytes of `IN[0..IN_LEN)`. -/
theorem payloadOperand_eq_some {s : State} {p : List Byte} : s.payloadOperand = some p ↔
    p.length = s.inLen.toNat ∧ ∀ i, i < s.inLen.toNat → s.inBuf.read i = p[i]? := by
  simpa [State.payloadOperand] using Memory.readBytes_eq_some (m := s.inBuf) (i := 0) (n := s.inLen.toNat) (bs := p)

/-- R186, R187: the payload is missing when one of its bytes is. -/
theorem payloadOperand_eq_none {s : State} :
    s.payloadOperand = none ↔ ∃ i, i < s.inLen.toNat ∧ s.inBuf.read i = none := by
  simpa [State.payloadOperand] using Memory.readBytes_eq_none (m := s.inBuf) (i := 0) (n := s.inLen.toNat)

/-- R11, R30: `OUT_LEN` counts every result that fits in `OUT`. -/
theorem setOut_outLen_toNat {s : State} {c : List Byte} (h : c.length ≤ outCap s.inCap) :
    (s.setOut c).outLen.toNat = c.length := by
  have hcap := s.inCap.hi
  rw [outCap] at h
  rw [setOut_outLen, BitVec.toNat_ofNat]
  omega

/-- R186: the encryption of a payload that fits in `IN` fits in `OUT`. -/
theorem encryptPayload_length_le {p : List Byte} {cap : InCap} (h : p.length ≤ cap.val) (sk : Schedule) :
    (encryptPayload p sk).length ≤ outCap cap := by
  rw [encryptPayload_length, outCap]
  omega

/-! ### The answers of `ENC` (R186) -/

theorem exec_enc_of_noKey {s : State} (hkey : s.keyValid = false) :
    exec .enc s = .next (s.setErr .noKey).invalidateOut :=
  if_pos hkey

theorem exec_enc_of_tooLong {s : State} (hkey : s.keyValid = true) (hlen : s.inCap.val < s.inLen.toNat) :
    exec .enc s = .next (s.setErr .capacityExceeded).invalidateOut := by
  rw [exec, execEnc, if_neg (by simp [hkey]), if_pos hlen]
  rfl

/-- With a key and a payload, `ENC` encrypts the payload into `OUT`. -/
theorem exec_enc_of_payload {s : State} {sk : Schedule} {p : List Byte} (hkey : s.keyValid = true)
    (hlen : s.inLen.toNat ≤ s.inCap.val) (hsk : s.sk = heldSchedule sk) (hp : s.payloadOperand = some p) :
    exec .enc s = .next ((s.setOut (encryptPayload p sk)).setErr .none) := by
  rw [exec, execEnc, if_neg (by simp [hkey]), if_neg (by omega), hp, scheduleOperand_of_held hsk]

/-- R220: an unwritten byte in the payload is a fault. -/
theorem exec_enc_of_unwritten {s : State} (hkey : s.keyValid = true) (hlen : s.inLen.toNat ≤ s.inCap.val)
    (hp : s.payloadOperand = none) : exec .enc s = .fault .unwrittenRead := by
  rw [exec, execEnc, if_neg (by simp [hkey]), if_neg (by omega), hp]

/-! ### The answers of `DEC` (R187) -/

theorem exec_dec_of_noKey {s : State} (hkey : s.keyValid = false) :
    exec .dec s = .next (s.setErr .noKey).invalidateOut :=
  if_pos hkey

theorem exec_dec_of_tooLong {s : State} (hkey : s.keyValid = true) (hlen : s.inCap.val < s.inLen.toNat) :
    exec .dec s = .next (s.setErr .capacityExceeded).invalidateOut := by
  rw [exec, execDec, if_neg (by simp [hkey]), if_pos hlen]
  rfl

theorem exec_dec_of_badLength {s : State} (hkey : s.keyValid = true) (hlen : s.inLen.toNat ≤ s.inCap.val)
    (hbad : badCiphertextLength s.inLen.toNat = true) :
    exec .dec s = .next (s.setErr .invalidCiphertextLength).invalidateOut := by
  rw [exec, execDec, if_neg (by simp [hkey]), if_neg (by omega), if_pos hbad]
  rfl

section Decrypting

variable {s : State} {sk : Schedule} {ct : List Byte} (hkey : s.keyValid = true) (hlen : s.inLen.toNat ≤ s.inCap.val)
  (hgood : badCiphertextLength s.inLen.toNat = false)

include hkey hlen hgood

/-- R220: once the length check has passed, an unwritten byte in the ciphertext is a fault. -/
theorem exec_dec_of_unwritten (hct : s.payloadOperand = none) : exec .dec s = .fault .unwrittenRead := by
  rw [exec, execDec, if_neg (by simp [hkey]), if_neg (by omega), if_neg (by simp [hgood]), hct]

/-- R214: when decryption fails, `DEC` reports why and leaves `OUT` without value. -/
theorem exec_dec_of_error (hsk : s.sk = heldSchedule sk) (hct : s.payloadOperand = some ct) {e : ErrCode}
    (h : decryptPayload ct sk = .error e) : exec .dec s = .next (s.setErr e).invalidateOut := by
  rw [exec, execDec, if_neg (by simp [hkey]), if_neg (by omega), if_neg (by simp [hgood]), hct, scheduleOperand_of_held hsk]
  dsimp only
  rw [h]
  rfl

/-- When decryption succeeds, `DEC` puts the decrypted bytes into `OUT`. -/
theorem exec_dec_of_ok (hsk : s.sk = heldSchedule sk) (hct : s.payloadOperand = some ct) {p : List Byte}
    (h : decryptPayload ct sk = .ok p) : exec .dec s = .next ((s.setOut p).setErr .none) := by
  rw [exec, execDec, if_neg (by simp [hkey]), if_neg (by omega), if_neg (by simp [hgood]), hct, scheduleOperand_of_held hsk]
  dsimp only
  rw [h]

end Decrypting

/-- R186's example. -/
theorem encryptPayload_hello :
    encryptPayload [0x48, 0x65, 0x6C, 0x6C, 0x6F, 0x31, 0x32, 0x33] (keySchedule 0x544553544B455931) =
      [0x9B, 0xBD, 0x2E, 0xCB, 0x91, 0x7F, 0xC3, 0x29, 0xBA, 0xF5, 0xC6, 0xAB, 0x3C, 0xA0, 0x45, 0xC4] := by
  decide +kernel

/-- R183's example, the encryption of the empty payload. -/
theorem encryptPayload_nil :
    encryptPayload [] (keySchedule 0x544553544B455931) = [0xBA, 0xF5, 0xC6, 0xAB, 0x3C, 0xA0, 0x45, 0xC4] := by
  decide +kernel

/-- R187's example, which undoes R183's. -/
theorem decryptPayload_example :
    decryptPayload [0xBA, 0xF5, 0xC6, 0xAB, 0x3C, 0xA0, 0x45, 0xC4] (keySchedule 0x544553544B455931) = .ok [] := by
  rw [← encryptPayload_nil]
  exact decryptPayload_encryptPayload [] _

/-- Settles O12: the four answers of `ENC`, with the payload read off the cells of `IN` and the result off those of `OUT`. -/
theorem encEncryptsPayload : Obligations.EncEncryptsPayload := by
  unfold Obligations.EncEncryptsPayload
  refine ⟨decode_encode .enc, rfl, rfl, fun _ => exec_enc_of_noKey, fun _ => exec_enc_of_tooLong,
    fun s sk p hkey hlen hsk hp hread => ?_,
    fun _ hkey hlen hnone => exec_enc_of_unwritten hkey hlen (payloadOperand_eq_none.mpr hnone), encryptPayload_hello⟩
  have hpayload : s.payloadOperand = some p := payloadOperand_eq_some.mpr ⟨hp, hp ▸ hread⟩
  have hfits : (encryptPayload p sk).length ≤ outCap s.inCap := encryptPayload_length_le (by omega) sk
  have houtLen := setOut_outLen_toNat hfits
  exact ⟨_, exec_enc_of_payload hkey hlen hsk hpayload, rfl, fun i => Memory.read_ofBytes_zero i _,
    Memory.wf_ofBytes 0 _, houtLen, by rw [← hp, ← encryptPayload_length p sk]; exact houtLen, houtLen.trans_le hfits⟩

/-- Settles O13: the answers of `DEC`. That a decrypted payload is 1 to 8 bytes shorter than the ciphertext comes from what `UNPAD`
accepts. -/
theorem decDecryptsPayload : Obligations.DecDecryptsPayload := by
  unfold Obligations.DecDecryptsPayload
  refine ⟨decode_encode .dec, rfl, rfl, rfl, rfl, fun _ => exec_dec_of_noKey, fun _ => exec_dec_of_tooLong,
    fun _ hkey hlen hbad => exec_dec_of_badLength hkey hlen (badCiphertextLength_eq_true.mpr hbad),
    fun s sk ct hkey hlen h0 h8 hsk hct hread => ?_,
    fun _ hkey hlen h0 h8 hnone => exec_dec_of_unwritten hkey hlen (badCiphertextLength_eq_false.mpr ⟨h0, h8⟩)
      (payloadOperand_eq_none.mpr hnone),
    decryptPayload_example⟩
  have hpayload : s.payloadOperand = some ct := payloadOperand_eq_some.mpr ⟨hct, hct ▸ hread⟩
  have hgood : badCiphertextLength s.inLen.toNat = false := badCiphertextLength_eq_false.mpr ⟨h0, h8⟩
  have hctLen : badCiphertextLength ct.length = false := hct ▸ hgood
  constructor
  · intro e he
    obtain rfl := eq_malformedPadding_of_decryptPayload hctLen he
    exact ⟨rfl, exec_dec_of_error hkey hlen hgood hsk hpayload he⟩
  · intro p hp
    obtain ⟨hlo, hhi⟩ := length_of_decryptPayload hctLen hp
    have hcap : outCap s.inCap = s.inCap.val + 8 := rfl
    have houtLen : ((s.setOut p).setErr .none).outLen.toNat = p.length :=
      setOut_outLen_toNat (s := s) (by omega)
    refine ⟨_, exec_dec_of_ok hkey hlen hgood hsk hpayload hp, rfl, fun i => Memory.read_ofBytes_zero i p,
      Memory.wf_ofBytes 0 p, houtLen, ?_, ?_, ?_, ?_⟩ <;> omega

end Sys2Proof.Machine
end

section
/-!
The round trip as a host program (R96, R188): what `LOADIN` does, what each of `LOADKEY`, `ENCRYPT` and `DECRYPT` does, and the three
of them one after another.
-/

namespace Sys2Proof.Machine

/-- The buffer after the bytes `bs` are written to its cells from `i` on, in order. -/
def Memory.writeBytes (m : Memory) (i : Nat) : List Byte → Memory
  | [] => m
  | b :: bs => (m.write i b).writeBytes (i + 1) bs

/-- The cells below the written ones keep their values. -/
theorem Memory.read_writeBytes_below (m : Memory) {i j : Nat} (bs : List Byte) (h : j < i) :
    (m.writeBytes i bs).read j = m.read j := by
  induction bs generalizing m i with
  | nil => rfl
  | cons b bs ih =>
    rw [Memory.writeBytes, ih _ (Nat.lt_succ_of_lt h), Memory.read_write_other m b (Nat.ne_of_lt h)]

/-- The written bytes read back. -/
theorem Memory.readBytes_writeBytes (m : Memory) (i : Nat) (bs : List Byte) :
    (m.writeBytes i bs).readBytes i bs.length = some bs := by
  induction bs generalizing m i with
  | nil => rfl
  | cons b bs ih =>
    have hfirst : (m.writeBytes i (b :: bs)).read i = some b := by
      rw [Memory.writeBytes, Memory.read_writeBytes_below _ bs (Nat.lt_succ_self i), Memory.read_write_same]
    have hrest : (m.writeBytes i (b :: bs)).readBytes (i + 1) bs.length = some bs := ih (m.write i b) (i + 1)
    rw [List.length_cons, Memory.readBytes_succ, hfirst, hrest]

/-- The state after `LOADIN` of `bs`. -/
def State.loadInput (s : State) (bs : List Byte) : State :=
  { s with inBuf := s.inBuf.writeBytes 0 bs, inLen := BitVec.ofNat 32 bs.length }

theorem loadInput_inLen_toNat {s : State} {bs : List Byte} (h : bs.length ≤ s.inCap.val) :
    (s.loadInput bs).inLen.toNat = bs.length := by
  have hcap := s.inCap.hi
  rw [State.loadInput, BitVec.toNat_ofNat]
  omega

/-- What is loaded is the operand of `ENC` and `DEC`. -/
theorem loadInput_payloadOperand {s : State} {bs : List Byte} (h : bs.length ≤ s.inCap.val) :
    (s.loadInput bs).payloadOperand = some bs := by
  rw [State.payloadOperand, loadInput_inLen_toNat h]
  exact Memory.readBytes_writeBytes s.inBuf 0 bs

/-! ### Sequences of actions (R60) -/

theorem performActions_cons {a : HostAction} {s t : State} (h : performAction a s = .next t) (rest : List HostAction) :
    performActions (a :: rest) s = performActions rest t := by
  rw [performActions, h]

theorem performActions_append {as : List HostAction} {s t : State} (h : performActions as s = .next t)
    (rest : List HostAction) : performActions (as ++ rest) s = performActions rest t := by
  induction as generalizing s with
  | nil => cases h; rfl
  | cons a as ih =>
    cases ha : performAction a s with
    | next u =>
      rw [performActions_cons ha] at h
      rw [List.cons_append, performActions_cons ha]
      exact ih h
    | fault r => simp [performActions, ha] at h
    | refused r => simp [performActions, ha] at h

/-- Writing bytes to `IN` one after another, within `IN_CAP`. -/
theorem performActions_writeIn {s : State} {i : Nat} {bs : List Byte} (h : i + bs.length ≤ s.inCap.val) :
    performActions (writeInActions i bs) s = .next { s with inBuf := s.inBuf.writeBytes i bs } := by
  induction bs generalizing s i with
  | nil => rfl
  | cons b bs ih =>
    rw [List.length_cons] at h
    have hrest : i + 1 + bs.length ≤ (s.writeIn i b).inCap.val := by rw [writeIn_inCap]; omega
    rw [writeInActions, performActions_cons (performAction_write_inCell b (by omega))]
    exact ih hrest

/-- R96: `LOADIN`. -/
theorem performActions_loadIn {s : State} {bs : List Byte} (h : bs.length ≤ s.inCap.val) :
    performActions (loadInActions bs) s = .next (s.loadInput bs) := by
  have hwrite : performActions (writeInActions 0 bs) s = .next { s with inBuf := s.inBuf.writeBytes 0 bs } :=
    performActions_writeIn (by omega)
  rw [loadInActions, performActions_append hwrite, performActions_cons (performAction_write_reg .inLen _ _)]
  rfl

/-- R96: `LOADIN` followed by a command. -/
theorem performActions_loadIn_command {s t : State} {bs : List Byte} {i : Instr} (h : bs.length ≤ s.inCap.val)
    (hexec : exec i (s.loadInput bs) = .next t) :
    performActions (loadInActions bs ++ [.command (encode i)]) s = .next t := by
  have hissue : performAction (.command (encode i)) (s.loadInput bs) = .next t := by
    rw [performAction_command, issue, decode_encode]
    exact hexec
  rw [performActions_append (performActions_loadIn h), performActions_cons hissue]
  rfl

/-! ### The three lines of the round trip (R96) -/

/-- R96: `LOADKEY` of eight bytes. -/
theorem performActions_loadKey (s : State) {kb : List Byte} (h : kb.length = 8) :
    performActions (loadInActions kb ++ [.command (encode .ldkey)]) s =
      .next (((s.loadInput kb).loadKey (blk kb) (keySchedule (blk kb))).setErr .none) := by
  have hfits : kb.length ≤ s.inCap.val := h.trans_le s.inCap.lo
  have hlen : (s.loadInput kb).inLen = 8 := by rw [State.loadInput, h]; rfl
  have hoperand : (s.loadInput kb).keyOperand = some kb := by
    rw [State.keyOperand, ← h]
    exact Memory.readBytes_writeBytes s.inBuf 0 kb
  exact performActions_loadIn_command hfits (exec_ldkey_of_keyOperand hlen hoperand)

section Keyed

variable {s : State} {sk : Schedule} (hkey : s.keyValid = true) (hsk : s.sk = heldSchedule sk)

include hkey hsk

/-- R96: `ENCRYPT` of a payload that fits in `IN`. -/
theorem performActions_encrypt {p : List Byte} (h : p.length ≤ s.inCap.val) :
    performActions (loadInActions p ++ [.command (encode .enc)]) s =
      .next (((s.loadInput p).setOut (encryptPayload p sk)).setErr .none) :=
  performActions_loadIn_command h
    (exec_enc_of_payload hkey ((loadInput_inLen_toNat h).trans_le h) hsk (loadInput_payloadOperand h))

/-- R96: `DECRYPT` of a ciphertext that fits in `IN`. -/
theorem performActions_decrypt {ct p : List Byte} (h : ct.length ≤ s.inCap.val)
    (hgood : badCiphertextLength ct.length = false) (hp : decryptPayload ct sk = .ok p) :
    performActions (loadInActions ct ++ [.command (encode .dec)]) s =
      .next (((s.loadInput ct).setOut p).setErr .none) := by
  have hlen := loadInput_inLen_toNat h
  exact performActions_loadIn_command h
    (exec_dec_of_ok (s := s.loadInput ct) hkey (hlen.trans_le h) (hlen ▸ hgood) hsk (loadInput_payloadOperand h) hp)

end Keyed

/-- Settles O47: `LOADKEY`, `ENCRYPT` and `DECRYPT` one after another, each on the state the one before leaves. -/
theorem roundTrip : Obligations.RoundTrip := by
  unfold Obligations.RoundTrip
  refine ⟨fun p k => decryptPayload_encryptPayload p _, fun s kb p hkb hp => ?_⟩
  obtain ⟨keyed, hload, hcap, hkey, hsk⟩ : ∃ keyed,
      performActions (loadInActions kb ++ [.command (encode .ldkey)]) s = .next keyed ∧ keyed.inCap = s.inCap ∧
      keyed.keyValid = true ∧ keyed.sk = heldSchedule (keySchedule (blk kb)) :=
    ⟨((s.loadInput kb).loadKey _ _).setErr .none, performActions_loadKey s hkb, rfl, rfl, rfl⟩
  rw [← hcap] at hp
  have hpayload : p.length ≤ keyed.inCap.val := by omega
  have hcipher : (encryptPayload p (keySchedule (blk kb))).length ≤ keyed.inCap.val := by
    rw [encryptPayload_length]
    omega
  have hencrypt := performActions_encrypt hkey hsk hpayload
  refine ⟨_, encryptPayload p (keySchedule (blk kb)), _, ?_, rfl, ?_, fun i => Memory.read_ofBytes_zero i _,
    performActions_decrypt (s := ((keyed.loadInput p).setOut _).setErr .none) hkey hsk hcipher
      (badCiphertextLength_encryptPayload p _) (decryptPayload_encryptPayload p _),
    rfl, ?_, fun i => Memory.read_ofBytes_zero i p⟩
  · rw [List.append_assoc _ (loadInActions p), performActions_append hload, hencrypt]
  · rw [setErr_outLen, setOut_outLen_toNat]
    exact encryptPayload_length_le hpayload _
  · rw [setErr_outLen, setOut_outLen_toNat]
    exact Nat.le_trans hpayload (Nat.le_add_right _ 8)

end Sys2Proof.Machine
end

section
/-!
The error codes (R210 to R217). A command that does not succeed ends in `raiseError` with a code of its row in R211's table, so what a
failure changes (R214) and which codes are reportable (R211) are read off that one operation. The checks on `KEY_VALID` and `IN_LEN` answer
before `IN` is read (R216), and no command reads the old code (R215).
-/

namespace Sys2Proof.Machine

/-! ### Failures (R211, R214) -/

/-- R211: the codes a failing command can report. -/
def failureCodes : Instr → List ErrCode
  | .ldkey => [.invalidKeyLength]
  | .enc => [.noKey, .capacityExceeded]
  | .dec => [.invalidCiphertextLength, .malformedPadding, .noKey, .capacityExceeded]
  | .encb | .decb => [.noKey]

/-- R214: `raise E` reports `E`. -/
theorem exists_raiseError (c : Option Instr) (e : ErrCode) (s : State) : ∃ t, raiseError c e s = .next t ∧ t.err = e := by
  refine ⟨_, raiseError_eq c e s, ?_⟩
  split <;> rfl

theorem err_of_raiseError {c : Option Instr} {e : ErrCode} {s t : State} (h : raiseError c e s = .next t) : t.err = e := by
  obtain ⟨u, hu, herr⟩ := exists_raiseError c e s
  rw [hu] at h
  cases h
  exact herr

/-- R214: a failure of `ENC` or `DEC` leaves `OUT` without value. -/
theorem eq_invalidateOut_of_raiseError {i : Instr} (hi : i = .enc ∨ i = .dec) {e : ErrCode} {s t : State}
    (h : raiseError (some i) e s = .next t) : t = (s.setErr e).invalidateOut := by
  rcases hi with rfl | rfl
  · exact (Host.Outcome.next.inj h).symm
  · exact (Host.Outcome.next.inj h).symm

/-- R214: a failure of `ENCB` or `DECB` leaves `DOUT` without value. -/
theorem eq_invalidateDout_of_raiseError {i : Instr} (hi : i = .encb ∨ i = .decb) {e : ErrCode} {s t : State}
    (h : raiseError (some i) e s = .next t) : t = (s.setErr e).invalidateDout := by
  rcases hi with rfl | rfl
  · exact (Host.Outcome.next.inj h).symm
  · exact (Host.Outcome.next.inj h).symm

/-- R187, R216: `DEC` reports `MalformedPadding` for what `UNPAD` rejects, past all its other checks. -/
theorem exec_dec_malformedPadding {s t : State} (h : exec .dec s = .next t) (herr : t.err = .malformedPadding) :
    s.keyValid = true ∧ s.inLen.toNat ≤ s.inCap.val ∧ badCiphertextLength s.inLen.toNat = false ∧
    ∃ ct sk, s.payloadOperand = some ct ∧ s.sk = heldSchedule sk ∧
      unpad (transformBlocks ct sk false) = .error .malformedPadding := by
  rcases execDec_cases h with ⟨-, rfl⟩ | ⟨-, -, rfl⟩ | ⟨-, -, -, rfl⟩ |
    ⟨hkey, hcap, hgood, ct, sk, hct, hsched, ⟨e, he, rfl⟩ | ⟨p, -, rfl⟩⟩
  · simp at herr
  · simp at herr
  · simp at herr
  · obtain rfl : e = .malformedPadding := herr
    have hctLen : badCiphertextLength ct.length = false := by rw [(payloadOperand_eq_some.mp hct).1, hgood]
    rw [decryptPayload_of_goodLength hctLen] at he
    exact ⟨hkey, hcap, hgood, ct, sk, hct, held_of_scheduleOperand hsched, he⟩
  · simp at herr

/-- R166, R167: a block command succeeds or has no key. -/
theorem runBlock_succeeds_or_raises {i : Instr} {f : Bool} {s t : State} (hi : i = .encb ∨ i = .decb)
    (h : runBlock i f s = .next t) : t.err = .none ∨ raiseError (some i) .noKey s = .next t := by
  rcases runBlock_cases hi h with ⟨hkey, -⟩ | ⟨-, b, sk, -, -, rfl⟩
  · rw [runBlock, if_pos hkey] at h
    exact .inr h
  · exact .inl rfl

/-- R211, R214: a command succeeds, or it ends in `raise E` for a code `E` of its row. -/
theorem exec_succeeds_or_raises {i : Instr} {s t : State} (h : exec i s = .next t) :
    t.err = .none ∨ ∃ e ∈ failureCodes i, raiseError (some i) e s = .next t := by
  cases i with
  | ldkey =>
    rcases execLdkey_cases h with ⟨-, rfl⟩ | ⟨-, bs, -, rfl⟩
    · exact .inr ⟨.invalidKeyLength, by decide, rfl⟩
    · exact .inl rfl
  | enc =>
    rcases execEnc_cases h with ⟨-, rfl⟩ | ⟨-, -, rfl⟩ | ⟨-, -, p, sk, -, -, rfl⟩
    · exact .inr ⟨.noKey, by decide, rfl⟩
    · exact .inr ⟨.capacityExceeded, by decide, rfl⟩
    · exact .inl rfl
  | dec =>
    rcases execDec_cases h with ⟨-, rfl⟩ | ⟨-, -, rfl⟩ | ⟨-, -, -, rfl⟩ |
      ⟨-, -, hgood, ct, sk, hct, -, ⟨e, he, rfl⟩ | ⟨p, -, rfl⟩⟩
    · exact .inr ⟨.noKey, by decide, rfl⟩
    · exact .inr ⟨.capacityExceeded, by decide, rfl⟩
    · exact .inr ⟨.invalidCiphertextLength, by decide, rfl⟩
    · obtain rfl := eq_malformedPadding_of_decryptPayload ((payloadOperand_eq_some.mp hct).1 ▸ hgood) he
      exact .inr ⟨.malformedPadding, by decide, rfl⟩
    · exact .inl rfl
  | encb => exact (runBlock_succeeds_or_raises (.inl rfl) h).imp_right fun hraise => ⟨.noKey, by decide, hraise⟩
  | decb => exact (runBlock_succeeds_or_raises (.inr rfl) h).imp_right fun hraise => ⟨.noKey, by decide, hraise⟩

/-- R211, R214: a failing command reports a code of its row and does what `raise` does. -/
theorem exec_fails {i : Instr} {s t : State} (h : exec i s = .next t) (herr : t.err ≠ .none) :
    t.err ∈ failureCodes i ∧ raiseError (some i) t.err s = .next t := by
  rcases exec_succeeds_or_raises h with hnone | ⟨e, he, hraise⟩
  · exact absurd hnone herr
  · obtain rfl := err_of_raiseError hraise
    exact ⟨he, hraise⟩

theorem failureCodes_enc_subset_dec : failureCodes .enc ⊆ failureCodes .dec := by decide

/-- R214: a failing `LDKEY` changes only `ERR`. -/
theorem exec_ldkey_fails {s t : State} (h : exec .ldkey s = .next t) (herr : t.err ≠ .none) :
    t.err = .invalidKeyLength ∧ t = { s with err := t.err } := by
  obtain ⟨hcode, hraise⟩ := exec_fails h herr
  exact ⟨by simpa [failureCodes] using hcode, (Host.Outcome.next.inj hraise).symm⟩

/-- R214: a failing `ENC` or `DEC` changes only `ERR`, `OUT` and `OUT_LEN`. -/
theorem exec_payload_fails {i : Instr} {s t : State} (hi : i = .enc ∨ i = .dec) (h : exec i s = .next t)
    (herr : t.err ≠ .none) :
    (t.err = .invalidCiphertextLength ∨ t.err = .malformedPadding ∨ t.err = .noKey ∨ t.err = .capacityExceeded) ∧
    t = { s with err := t.err, outLen := 0, outBuf := t.outBuf } ∧ ∀ a, t.outBuf.read a = none := by
  obtain ⟨hcode, hraise⟩ := exec_fails h herr
  have hdec : t.err ∈ failureCodes .dec := by
    rcases hi with rfl | rfl
    · exact failureCodes_enc_subset_dec hcode
    · exact hcode
  have ht := eq_invalidateOut_of_raiseError hi hraise
  have hout : t.outBuf = [] := by rw [ht, invalidateOut_outBuf]
  refine ⟨by simpa [failureCodes] using hdec, ?_, fun a => ?_⟩
  · rw [hout]
    exact ht
  · rw [hout, Memory.read_nil]

/-- R214: a failing `ENCB` or `DECB` changes only `ERR` and `DOUT`. -/
theorem exec_block_fails {i : Instr} {s t : State} (hi : i = .encb ∨ i = .decb) (h : exec i s = .next t)
    (herr : t.err ≠ .none) : t.err = .noKey ∧ t = { s with err := t.err, doutHi := none, doutLo := none } := by
  obtain ⟨hcode, hraise⟩ := exec_fails h herr
  refine ⟨?_, eq_invalidateDout_of_raiseError hi hraise⟩
  rcases hi with rfl | rfl
  · exact List.mem_singleton.mp hcode
  · exact List.mem_singleton.mp hcode

/-- R84: what writing an illegal word to `CMD` does. -/
theorem performAction_of_illegal {w : Word} {why : IllegalWord} (h : decode w = .illegal why) (s : State) :
    performAction (.command w) s = .next { s with err := .illegalCommand } :=
  (performAction_command w s).trans (issue_of_illegal h s)

/-- Settles O15: every failure is a `raise`, whose effects R214 lists by command. -/
theorem failingCommandEffects : Obligations.FailingCommandEffects := by
  unfold Obligations.FailingCommandEffects
  exact ⟨rfl, rfl, rfl, rfl, rfl, rfl, rfl, fun _ _ => exec_ldkey_fails, fun _ _ _ => exec_payload_fails,
    fun _ _ _ => exec_block_fails, fun _ s ⟨_, hd⟩ => performAction_of_illegal hd s⟩

/-! ### The order of the checks (R216) -/

/-- R212: without a key, every command but `LDKEY` reports `NoKey`. -/
theorem exec_of_noKey {i : Instr} (hi : i ≠ .ldkey) {s : State} (hkey : s.keyValid = false) :
    exec i s = raiseError (some i) .noKey s := by
  cases i with
  | ldkey => exact absurd rfl hi
  | enc => exact exec_enc_of_noKey hkey
  | dec => exact exec_dec_of_noKey hkey
  | encb => exact runBlock_of_noKey (.inl rfl) true hkey
  | decb => exact runBlock_of_noKey (.inr rfl) false hkey

/-- R213: with a key, `ENC` and `DEC` report a length above `IN_CAP`. -/
theorem exec_of_tooLong {i : Instr} (hi : i = .enc ∨ i = .dec) {s : State} (hkey : s.keyValid = true)
    (hlen : s.inCap.val < s.inLen.toNat) : exec i s = raiseError (some i) .capacityExceeded s := by
  rcases hi with rfl | rfl
  · exact exec_enc_of_tooLong hkey hlen
  · exact exec_dec_of_tooLong hkey hlen

/-- R211: only `DEC` unpads. -/
theorem eq_dec_of_malformedPadding {i : Instr} {s t : State} (h : exec i s = .next t) (herr : t.err = .malformedPadding) :
    i = .dec := by
  have hcode := (exec_fails h (by simp [herr])).1
  rw [herr] at hcode
  cases i with
  | dec => rfl
  | ldkey => simp [failureCodes] at hcode
  | enc => simp [failureCodes] at hcode
  | encb => simp [failureCodes] at hcode
  | decb => simp [failureCodes] at hcode

/-- Settles O18: each check of the list answers by itself, and `MalformedPadding` is left for what passes all of them. -/
theorem errorPriority : Obligations.ErrorPriority := by
  unfold Obligations.ErrorPriority
  refine ⟨fun _ s ⟨_, hd⟩ => ⟨_, performAction_of_illegal hd s, rfl⟩, fun i s hi hkey => ?_, fun i s hi hkey hlen => ?_,
    fun s hlen => ⟨_, exec_ldkey_of_inLen_ne hlen, rfl⟩,
    fun s hkey hcap hbad => ⟨_, exec_dec_of_badLength hkey hcap (badCiphertextLength_eq_true.mpr hbad), rfl⟩,
    fun i s t h herr => ?_⟩
  · have hne : i ≠ .ldkey := by
      rintro rfl
      simp at hi
    rw [exec_of_noKey hne hkey]
    exact exists_raiseError _ _ s
  · rw [exec_of_tooLong hi hkey hlen]
    exact exists_raiseError _ _ s
  · obtain rfl := eq_dec_of_malformedPadding h herr
    obtain ⟨hkey, hcap, hgood, ct, sk, hct, hsk, hunpad⟩ := exec_dec_malformedPadding h herr
    obtain ⟨h0, h8⟩ := badCiphertextLength_eq_false.mp hgood
    obtain ⟨hctLen, hread⟩ := payloadOperand_eq_some.mp hct
    exact ⟨rfl, hkey, hcap, h0, h8, ct, sk, hsk, hctLen, hctLen ▸ hread, hunpad⟩

/-! ### A state for every code (R211) -/

/-- The core after reset with the all-zero key loaded and the all-zero block in `DIN`. -/
def State.keyed : State := ((State.reset.loadKey 0 (keySchedule 0)).setDinHi 0).setDinLo 0

/-- A ciphertext that decrypts, under the all-zero key, to eight zero bytes, which end in no padding. -/
def unpaddedCiphertext : List Byte := transformBlocks (List.replicate 8 0) (keySchedule 0) true

theorem unpaddedCiphertext_length : unpaddedCiphertext.length = 8 :=
  transformBlocks_length (by decide) (keySchedule 0) true

theorem decryptPayload_unpaddedCiphertext : decryptPayload unpaddedCiphertext (keySchedule 0) = .error .malformedPadding := by
  have hzero : transformBlocks unpaddedCiphertext (keySchedule 0) false = List.replicate 8 0 :=
    transformBlocks_not_transformBlocks (by decide) (keySchedule 0) true
  rw [decryptPayload_of_goodLength (by rw [unpaddedCiphertext_length]; rfl), hzero]
  rfl

/-- Every command succeeds in some state. -/
theorem exists_exec_succeeds (i : Instr) : ∃ s t, exec i s = .next t ∧ t.err = .none := by
  cases i with
  | ldkey =>
    have hfits : (List.replicate 8 (0 : Byte)).length ≤ State.reset.inCap.val := State.reset.inCap.lo
    exact ⟨State.reset.loadInput (List.replicate 8 0), _,
      exec_ldkey_of_keyOperand rfl (loadInput_payloadOperand hfits), rfl⟩
  | enc => exact ⟨State.keyed, _, exec_enc_of_payload (p := []) rfl (Nat.zero_le _) rfl rfl, rfl⟩
  | dec =>
    have hlen : (encryptPayload [] (keySchedule 0)).length = 8 := encryptPayload_length [] _
    have hfits : (encryptPayload [] (keySchedule 0)).length ≤ State.keyed.inCap.val := hlen.trans_le State.keyed.inCap.lo
    have hinLen := loadInput_inLen_toNat hfits
    exact ⟨State.keyed.loadInput (encryptPayload [] (keySchedule 0)), _,
      exec_dec_of_ok rfl (hinLen.trans_le hfits) (by rw [hinLen, hlen]; rfl) rfl (loadInput_payloadOperand hfits)
        (decryptPayload_encryptPayload [] _), rfl⟩
  | encb => exact ⟨State.keyed, _, runBlock_of_operands (s := State.keyed) .encb true rfl rfl rfl, rfl⟩
  | decb => exact ⟨State.keyed, _, runBlock_of_operands (s := State.keyed) .decb false rfl rfl rfl, rfl⟩

/-- `ENC` and `DEC` report `CapacityExceeded` in some state. -/
theorem exists_exec_tooLong {i : Instr} (hi : i = .enc ∨ i = .dec) :
    ∃ s, exec i s = raiseError (some i) .capacityExceeded s :=
  ⟨{ State.keyed with inLen := 0xFFFFFFFF }, exec_of_tooLong hi rfl (Nat.lt_of_le_of_lt State.keyed.inCap.hi (by decide))⟩

/-- `DEC` reports `MalformedPadding` in some state. -/
theorem exists_exec_dec_malformedPadding : ∃ s, exec .dec s = raiseError (some .dec) .malformedPadding s := by
  have hfits : unpaddedCiphertext.length ≤ State.keyed.inCap.val :=
    unpaddedCiphertext_length.trans_le State.keyed.inCap.lo
  have hinLen := loadInput_inLen_toNat hfits
  exact ⟨State.keyed.loadInput unpaddedCiphertext,
    exec_dec_of_error rfl (hinLen.trans_le hfits) (by rw [hinLen, unpaddedCiphertext_length]; rfl) rfl
      (loadInput_payloadOperand hfits) decryptPayload_unpaddedCiphertext⟩

/-- R211: every code of a command's row is raised in some state. -/
theorem exists_exec_raises {i : Instr} {e : ErrCode} (he : e ∈ failureCodes i) :
    ∃ s, exec i s = raiseError (some i) e s := by
  cases i with
  | ldkey =>
    obtain rfl := List.mem_singleton.mp he
    exact ⟨State.reset, exec_ldkey_of_inLen_ne (by decide)⟩
  | enc =>
    obtain rfl | rfl : e = .noKey ∨ e = .capacityExceeded := by simpa [failureCodes] using he
    · exact ⟨State.reset, exec_of_noKey (by decide) rfl⟩
    · exact exists_exec_tooLong (.inl rfl)
  | dec =>
    obtain rfl | rfl | rfl | rfl :
        e = .invalidCiphertextLength ∨ e = .malformedPadding ∨ e = .noKey ∨ e = .capacityExceeded := by
      simpa [failureCodes] using he
    · exact ⟨State.keyed, exec_dec_of_badLength rfl (Nat.zero_le _) rfl⟩
    · exact exists_exec_dec_malformedPadding
    · exact ⟨State.reset, exec_of_noKey (by decide) rfl⟩
    · exact exists_exec_tooLong (.inr rfl)
  | encb =>
    obtain rfl := List.mem_singleton.mp he
    exact ⟨State.reset, exec_of_noKey (by decide) rfl⟩
  | decb =>
    obtain rfl := List.mem_singleton.mp he
    exact ⟨State.reset, exec_of_noKey (by decide) rfl⟩

/-- R211: a command reports `None` and the codes of its row, each in some state, and no other. -/
theorem exec_reports_iff (i : Instr) (e : ErrCode) :
    (∃ s t, exec i s = .next t ∧ t.err = e) ↔ e = .none ∨ e ∈ failureCodes i := by
  constructor
  · rintro ⟨s, t, h, rfl⟩
    by_cases herr : t.err = .none
    · exact .inl herr
    · exact .inr (exec_fails h herr).1
  · rintro (rfl | he)
    · exact exists_exec_succeeds i
    · obtain ⟨s, hs⟩ := exists_exec_raises he
      obtain ⟨t, ht, herr⟩ := exists_raiseError (some i) e s
      exact ⟨s, t, hs.trans ht, herr⟩

/-- R211: an illegal word reports `IllegalCommand` and nothing else. -/
theorem illegal_reports_iff (e : ErrCode) :
    (∃ w why s t, decode w = .illegal why ∧ performAction (.command w) s = .next t ∧ t.err = e) ↔ e = .illegalCommand := by
  constructor
  · rintro ⟨w, why, s, t, hd, h, rfl⟩
    rw [performAction_of_illegal hd] at h
    cases h
    rfl
  · rintro rfl
    have hd : decode 0 = .illegal .unknownOp := by decide
    exact ⟨0, .unknownOp, State.reset, _, hd, performAction_of_illegal hd _, rfl⟩

/-- Settles O16: each row of R211's table is a row of `failureCodes`. -/
theorem reportableCodes : Obligations.ReportableCodes := by
  unfold Obligations.ReportableCodes
  refine ⟨rfl, rfl, rfl, rfl, rfl, rfl, rfl, ?_, ?_, ?_, ?_, ?_, illegal_reports_iff⟩
  · simpa [failureCodes] using exec_reports_iff .ldkey
  · simpa [failureCodes] using exec_reports_iff .enc
  · simpa [failureCodes] using exec_reports_iff .dec
  · simpa [failureCodes] using exec_reports_iff .encb
  · simpa [failureCodes] using exec_reports_iff .decb

/-! ### The code of the last command (R215) -/

/-- R215: no check and no operand reads `ERR`, and every answer of a command overwrites it. -/
theorem exec_setErr (i : Instr) (e : ErrCode) (s : State) : exec i (s.setErr e) = exec i s := by
  cases i <;> rfl

theorem issue_setErr (w : Word) (e : ErrCode) (s : State) : issue w (s.setErr e) = issue w s := by
  cases hd : decode w with
  | command i => rw [issue, issue, hd]; exact exec_setErr i e s
  | illegal why => rw [issue_of_illegal hd, issue_of_illegal hd]; rfl

/-- R215: no host action but a write to `CMD` and a reset changes `ERR`. -/
theorem err_of_performAction {a : HostAction} {s t : State} (h : performAction a s = .next t)
    (hcmd : ∀ w, a ≠ .command w) (hreset : a ≠ .reset) : t.err = s.err := by
  cases a with
  | write width off v =>
    rcases hostWrite_cases h with ⟨hloc, rfl, -⟩ | ⟨-, -, rfl⟩ | ⟨-, -, rfl⟩ | ⟨-, -, rfl⟩ | ⟨i, -, -, rfl⟩
    · obtain rfl : off = 0x0000 := locate_reg.mp hloc
      exact absurd rfl (hcmd v)
    · exact setInLen_err s _
    · exact setDinHi_err s _
    · exact setDinLo_err s _
    · exact writeIn_err s _ _
  | read width off =>
    obtain ⟨v, rfl⟩ := hostRead_cases h
    exact observe_err s v
  | reset => exact absurd rfl hreset

/-- R240: a reset leaves the code `None`. -/
theorem err_of_reset {s t : State} (h : performAction .reset s = .next t) : t.err = .none := by
  obtain rfl : s.resetCore = t := Host.Outcome.next.inj h
  exact resetCore_err s

/-- Settles O17: commands overwrite `ERR` without reading it, and the other actions but reset leave it. -/
theorem errDescribesLastCommand : Obligations.ErrDescribesLastCommand := by
  unfold Obligations.ErrDescribesLastCommand
  refine ⟨fun w e s => ?_, fun _ _ _ => err_of_performAction, fun _ _ => err_of_reset, rfl, rfl⟩
  rw [performAction_command, performAction_command]
  exact issue_setErr w e s

end Sys2Proof.Machine
end

section
/-!
What a command that answers has done (R126, R166, R167, R186, R187, R214): one inductive relation with a case for each success and each
failure. The frame of the commands and the answer to a command issued again are read off it.
-/

namespace Sys2Proof.Machine

/-- What a command makes of a state when it answers. -/
inductive CommandEffect (s : State) : Instr → State → Prop where
  | keyLoaded {bs : List Byte} (hlen : s.inLen = 8) (hkey : s.keyOperand = some bs) :
      CommandEffect s .ldkey ((s.loadKey (blk bs) (keySchedule (blk bs))).setErr .none)
  | keyRejected (e : ErrCode) : CommandEffect s .ldkey (s.setErr e)
  | outWritten {i : Instr} (hi : i = .enc ∨ i = .dec) {c : List Byte} (hfits : c.length ≤ outCap s.inCap) :
      CommandEffect s i ((s.setOut c).setErr .none)
  | outInvalidated {i : Instr} (hi : i = .enc ∨ i = .dec) (e : ErrCode) : CommandEffect s i (s.setErr e).invalidateOut
  | doutWritten {i : Instr} (hi : i = .encb ∨ i = .decb) (v : Block) : CommandEffect s i ((s.setDout v).setErr .none)
  | doutInvalidated {i : Instr} (hi : i = .encb ∨ i = .decb) (e : ErrCode) : CommandEffect s i (s.setErr e).invalidateDout

theorem commandEffect_of_runBlock {i : Instr} {f : Bool} {s t : State} (hi : i = .encb ∨ i = .decb)
    (h : runBlock i f s = .next t) : CommandEffect s i t := by
  rcases runBlock_cases hi h with ⟨-, rfl⟩ | ⟨-, b, sk, -, -, rfl⟩
  · exact .doutInvalidated hi _
  · exact .doutWritten hi _

/-- Every answer of a command is one of the effects. -/
theorem commandEffect_of_exec {i : Instr} {s t : State} (h : exec i s = .next t) : CommandEffect s i t := by
  cases i with
  | ldkey =>
    rcases execLdkey_cases h with ⟨-, rfl⟩ | ⟨hlen, bs, hkey, rfl⟩
    · exact .keyRejected _
    · exact .keyLoaded hlen hkey
  | enc =>
    rcases execEnc_cases h with ⟨-, rfl⟩ | ⟨-, -, rfl⟩ | ⟨-, hcap, p, sk, hp, -, rfl⟩
    · exact .outInvalidated (.inl rfl) _
    · exact .outInvalidated (.inl rfl) _
    · exact .outWritten (.inl rfl) (encryptPayload_length_le ((payloadOperand_eq_some.mp hp).1.trans_le hcap) sk)
  | dec =>
    rcases execDec_cases h with ⟨-, rfl⟩ | ⟨-, -, rfl⟩ | ⟨-, -, -, rfl⟩ |
      ⟨-, hcap, hgood, ct, sk, hct, -, ⟨e, -, rfl⟩ | ⟨p, hp, rfl⟩⟩
    · exact .outInvalidated (.inr rfl) _
    · exact .outInvalidated (.inr rfl) _
    · exact .outInvalidated (.inr rfl) _
    · exact .outInvalidated (.inr rfl) _
    · have hctLen := (payloadOperand_eq_some.mp hct).1
      obtain ⟨hshort, -⟩ := length_of_decryptPayload (hctLen ▸ hgood) hp
      exact .outWritten (.inr rfl) (by rw [outCap]; omega)
  | encb => exact commandEffect_of_runBlock (.inl rfl) h
  | decb => exact commandEffect_of_runBlock (.inr rfl) h

/-! ### The frame (R33, R58) -/

/-- The state `t` has the inputs of `s`, and what is not the core's state is the same in both. -/
def SameInputs (s t : State) : Prop :=
  t.inBuf = s.inBuf ∧ t.inLen = s.inLen ∧ t.dinHi = s.dinHi ∧ t.dinLo = s.dinLo ∧
  t.inCap = s.inCap ∧ t.program = s.program ∧ t.observed = s.observed

/-- No command writes an input. -/
theorem sameInputs_of_exec {i : Instr} {s t : State} (h : exec i s = .next t) : SameInputs s t := by
  cases commandEffect_of_exec h <;> exact ⟨rfl, rfl, rfl, rfl, rfl, rfl, rfl⟩

/-- Only `ENC` and `DEC` write `OUT` and `OUT_LEN`. -/
theorem sameOut_of_exec {i : Instr} {s t : State} (hi : i = .ldkey ∨ i = .encb ∨ i = .decb) (h : exec i s = .next t) :
    t.outBuf = s.outBuf ∧ t.outLen = s.outLen := by
  cases commandEffect_of_exec h with
  | keyLoaded | keyRejected | doutWritten | doutInvalidated => exact ⟨rfl, rfl⟩
  | outWritten hi' | outInvalidated hi' => rcases hi' with rfl | rfl <;> simp at hi

/-- Only `ENCB` and `DECB` write `DOUT`. -/
theorem sameDout_of_exec {i : Instr} {s t : State} (hi : i = .ldkey ∨ i = .enc ∨ i = .dec) (h : exec i s = .next t) :
    t.doutHi = s.doutHi ∧ t.doutLo = s.doutLo := by
  cases commandEffect_of_exec h with
  | keyLoaded | keyRejected | outWritten | outInvalidated => exact ⟨rfl, rfl⟩
  | doutWritten hi' | doutInvalidated hi' => rcases hi' with rfl | rfl <;> simp at hi

/-- R29: the cells of a result are those below `OUT_LEN`. -/
theorem setOut_outBuf_read_isSome {s : State} {c : List Byte} (hfits : c.length ≤ outCap s.inCap) (a : Nat) :
    ((s.setOut c).outBuf.read a).isSome = true ↔ a < (s.setOut c).outLen.toNat := by
  rw [setOut_outLen_toNat hfits, setOut_outBuf, Memory.read_ofBytes_zero, isSome_getElem?]

/-- R186, R187, R214: after `ENC` or `DEC` the cells from `OUT_LEN` on hold `⊥`. -/
theorem outBuf_read_of_exec {i : Instr} {s t : State} (hi : i = .enc ∨ i = .dec) (h : exec i s = .next t) {a : Nat}
    (ha : t.outLen.toNat ≤ a) : t.outBuf.read a = none := by
  cases commandEffect_of_exec h with
  | keyLoaded | keyRejected => simp at hi
  | outWritten _ hfits =>
    rw [← Option.not_isSome_iff_eq_none]
    exact fun hsome => Nat.not_lt.mpr ha ((setOut_outBuf_read_isSome hfits a).mp hsome)
  | outInvalidated => exact Memory.read_nil a
  | doutWritten hi' | doutInvalidated hi' => rcases hi' with rfl | rfl <;> simp at hi

/-- Settles O14: the inputs, the key, `OUT` and `DOUT` each stay for the commands that do not write them. -/
theorem commandsLeaveTheRestUnchanged : Obligations.CommandsLeaveTheRestUnchanged := by
  unfold Obligations.CommandsLeaveTheRestUnchanged
  intro i s t h
  obtain ⟨hinBuf, hinLen, hdinHi, hdinLo, hinCap, hprogram, hobserved⟩ := sameInputs_of_exec h
  refine ⟨fun a => by rw [hinBuf], hinBuf, hinLen, hdinHi, hdinLo, hinCap, hprogram, hobserved,
    fun hi => sameKey_of_exec hi h, fun hi => ?_, fun hi => sameDout_of_exec hi h, fun hi a => outBuf_read_of_exec hi h⟩
  obtain ⟨houtBuf, houtLen⟩ := sameOut_of_exec hi h
  exact ⟨fun a => by rw [houtBuf], houtBuf, houtLen⟩

/-! ### Repetition (R66) -/

/-- `ENC` and `DEC` overwrite `OUT` and `OUT_LEN` in every answer and never read them. -/
theorem exec_with_out {i : Instr} (hi : i = .enc ∨ i = .dec) (s : State) (m : Memory) (n : Word) :
    exec i { s with outBuf := m, outLen := n } = exec i s := by
  rcases hi with rfl | rfl
  · rfl
  · rfl

/-- `ENCB` and `DECB` overwrite `DOUT` in every answer and never read it. -/
theorem exec_with_dout {i : Instr} (hi : i = .encb ∨ i = .decb) (s : State) (v w : Held Word) :
    exec i { s with doutHi := v, doutLo := w } = exec i s := by
  rcases hi with rfl | rfl
  · rfl
  · rfl

/-- R66: a command does not read what it has written, so issued again it gives the same answer. -/
theorem exec_repeat {i : Instr} {s t : State} (h : exec i s = .next t) : exec i t = .next t := by
  cases commandEffect_of_exec h with
  | keyLoaded hlen hkey => exact exec_ldkey_of_keyOperand hlen hkey
  | keyRejected e => rwa [exec_setErr]
  | outWritten hi => rw [exec_setErr]; exact (exec_with_out hi s _ _).trans h
  | outInvalidated hi e => exact ((exec_with_out hi (s.setErr e) _ _).trans (exec_setErr i e s)).trans h
  | doutWritten hi v => rw [exec_setErr]; exact (exec_with_dout hi s _ _).trans h
  | doutInvalidated hi e => exact ((exec_with_dout hi (s.setErr e) _ _).trans (exec_setErr i e s)).trans h

/-- Settles O20: the answer of a command depends on nothing that its effect changes. -/
theorem repeatedCommandChangesNothing : Obligations.RepeatedCommandChangesNothing := by
  unfold Obligations.RepeatedCommandChangesNothing
  exact fun _ _ _ => exec_repeat

end Sys2Proof.Machine
end

section
/-!
The invariant (R22 to R30). Reset establishes it, every update a host action is made of keeps it, and so does every step. In a state
that meets it a command with a key finds a whole schedule, so what a command lacks when it faults is a cell of `IN` or `DIN` (R220).
-/

namespace Sys2Proof.Machine

/-- R240: reset establishes the invariant from every state. -/
theorem consistent_resetCore (s : State) : s.resetCore.Consistent where
  inCanonical := Memory.wf_nil
  outCanonical := Memory.wf_nil
  inWithinCapacity i := by simp
  outHoldsResult i := by simp
  outFits := Nat.zero_le _
  keyed := by simp
  unkeyed _ := ⟨rfl, rfl⟩
  doutWhole := rfl

/-- Settles O24: the reset state is what reset makes of it. -/
theorem resetIsConsistent : Obligations.ResetIsConsistent := by
  unfold Obligations.ResetIsConsistent
  exact consistent_resetCore State.reset

/-! ### The updates -/

namespace State.Consistent

variable {s : State} (hs : s.Consistent)

include hs

theorem setErr (e : ErrCode) : (s.setErr e).Consistent := { hs with }

theorem setInLen (w : Word) : (s.setInLen w).Consistent := { hs with }

theorem setDinHi (w : Word) : (s.setDinHi w).Consistent := { hs with }

theorem setDinLo (w : Word) : (s.setDinLo w).Consistent := { hs with }

theorem observe (v : ReadValue) : (s.observe v).Consistent := { hs with }

theorem setProgram (p : List HostAction) : (s.setProgram p).Consistent := { hs with }

theorem loadKey (k : Block) : (s.loadKey k (keySchedule k)).Consistent :=
  { hs with
    keyed := fun _ => ⟨k, rfl, rfl⟩
    unkeyed := by simp }

theorem setOut {c : List Byte} (hfits : c.length ≤ outCap s.inCap) : (s.setOut c).Consistent :=
  { hs with
    outCanonical := Memory.wf_ofBytes 0 c
    outHoldsResult := setOut_outBuf_read_isSome hfits
    outFits := (setOut_outLen_toNat hfits).trans_le hfits }

theorem invalidateOut : s.invalidateOut.Consistent :=
  { hs with
    outCanonical := Memory.wf_nil
    outHoldsResult := by simp
    outFits := Nat.zero_le _ }

theorem setDout (v : Block) : (s.setDout v).Consistent := { hs with doutWhole := rfl }

theorem invalidateDout : s.invalidateDout.Consistent := { hs with doutWhole := rfl }

theorem writeIn {i : Nat} (hi : i < s.inCap.val) (b : Byte) : (s.writeIn i b).Consistent :=
  { hs with
    inCanonical := Memory.wf_write i b hs.inCanonical
    inWithinCapacity := fun j hj => by
      by_cases hij : j = i
      · exact hij ▸ hi
      · rw [writeIn_inBuf, Memory.read_write_other s.inBuf b hij] at hj
        exact hs.inWithinCapacity j hj }

/-! ### Commands, actions and steps -/

theorem exec {i : Instr} {t : State} (h : exec i s = .next t) : t.Consistent := by
  cases commandEffect_of_exec h with
  | keyLoaded => exact (hs.loadKey _).setErr _
  | keyRejected e => exact hs.setErr e
  | outWritten _ hfits => exact (hs.setOut hfits).setErr _
  | outInvalidated _ e => exact (hs.setErr e).invalidateOut
  | doutWritten _ v => exact (hs.setDout v).setErr _
  | doutInvalidated _ e => exact (hs.setErr e).invalidateDout

theorem issue {w : Word} {t : State} (h : issue w s = .next t) : t.Consistent := by
  cases hd : decode w with
  | command i =>
    rw [Machine.issue, hd] at h
    exact hs.exec h
  | illegal why =>
    rw [issue_of_illegal hd] at h
    cases h
    exact hs.setErr _

theorem performAction {a : HostAction} {t : State} (h : performAction a s = .next t) : t.Consistent := by
  cases a with
  | write width off v =>
    rcases hostWrite_cases h with ⟨-, -, hissue⟩ | ⟨-, -, rfl⟩ | ⟨-, -, rfl⟩ | ⟨-, -, rfl⟩ | ⟨i, hloc, -, rfl⟩
    · exact hs.issue hissue
    · exact hs.setInLen _
    · exact hs.setDinHi _
    · exact hs.setDinLo _
    · exact hs.writeIn (locate_inCell hloc).2 _
  | read width off =>
    obtain ⟨v, rfl⟩ := hostRead_cases h
    exact hs.observe v
  | reset =>
    cases h
    exact consistent_resetCore s

theorem step {t : State} (h : step s = .next t) : t.Consistent := by
  rcases step_cases h with ⟨-, rfl⟩ | ⟨a, rest, -, hact⟩
  · exact hs
  · exact (hs.setProgram rest).performAction hact

end State.Consistent

/-- Settles O25: a step is a host action, and every update one is made of keeps the invariant. -/
theorem stepKeepsConsistent : Obligations.StepKeepsConsistent := by
  unfold Obligations.StepKeepsConsistent
  exact fun _ _ hs => hs.step

/-! ### Faults (R220) -/

/-- R23: in a state of the invariant a loaded key has its whole schedule in `SK`. -/
theorem State.Consistent.exists_schedule {s : State} (hs : s.Consistent) (hkey : s.keyValid = true) :
    ∃ sk, s.sk = heldSchedule sk := by
  obtain ⟨k, -, hsk⟩ := hs.keyed hkey
  exact ⟨keySchedule k, hsk⟩

/-- R126: `LDKEY` faults when its length is right and a byte of the key is missing. -/
theorem exec_ldkey_fault_iff {s : State} :
    exec .ldkey s = .fault .unwrittenRead ↔ s.inLen = 8 ∧ ∃ j, j < 8 ∧ s.inBuf.read j = none := by
  rw [← keyOperand_eq_none]
  constructor
  · intro h
    by_cases hlen : s.inLen = 8
    · cases hkey : s.keyOperand with
      | none => exact ⟨hlen, rfl⟩
      | some bs => simp [exec_ldkey_of_keyOperand hlen hkey] at h
    · simp [exec_ldkey_of_inLen_ne hlen] at h
  · rintro ⟨hlen, hkey⟩
    exact exec_ldkey_of_unwritten hlen hkey

section Faults

variable {s : State} (hs : s.Consistent)

include hs

/-- R186: `ENC` faults when its checks pass and a byte of the payload is missing. -/
theorem exec_enc_fault_iff : exec .enc s = .fault .unwrittenRead ↔
    s.keyValid = true ∧ s.inLen.toNat ≤ s.inCap.val ∧ ∃ j, j < s.inLen.toNat ∧ s.inBuf.read j = none := by
  rw [← payloadOperand_eq_none]
  constructor
  · intro h
    cases hkey : s.keyValid with
    | false => simp [exec_enc_of_noKey hkey] at h
    | true =>
      obtain ⟨sk, hsk⟩ := hs.exists_schedule hkey
      rcases Nat.lt_or_ge s.inCap.val s.inLen.toNat with hlong | hlen
      · simp [exec_enc_of_tooLong hkey hlong] at h
      · cases hp : s.payloadOperand with
        | none => exact ⟨rfl, hlen, rfl⟩
        | some p => simp [exec_enc_of_payload hkey hlen hsk hp] at h
  · rintro ⟨hkey, hlen, hp⟩
    exact exec_enc_of_unwritten hkey hlen hp

/-- R187: `DEC` faults when the checks that come before decryption pass and a byte of the ciphertext is missing. -/
theorem exec_dec_fault_iff : exec .dec s = .fault .unwrittenRead ↔
    s.keyValid = true ∧ s.inLen.toNat ≤ s.inCap.val ∧ badCiphertextLength s.inLen.toNat = false ∧
      s.payloadOperand = none := by
  constructor
  · intro h
    cases hkey : s.keyValid with
    | false => simp [exec_dec_of_noKey hkey] at h
    | true =>
      obtain ⟨sk, hsk⟩ := hs.exists_schedule hkey
      rcases Nat.lt_or_ge s.inCap.val s.inLen.toNat with hlong | hlen
      · simp [exec_dec_of_tooLong hkey hlong] at h
      · cases hgood : badCiphertextLength s.inLen.toNat with
        | true => simp [exec_dec_of_badLength hkey hlen hgood] at h
        | false =>
          cases hct : s.payloadOperand with
          | none => exact ⟨rfl, hlen, rfl, rfl⟩
          | some ct =>
            cases hp : decryptPayload ct sk with
            | error e => simp [exec_dec_of_error hkey hlen hgood hsk hct hp] at h
            | ok p => simp [exec_dec_of_ok hkey hlen hgood hsk hct hp] at h
  · rintro ⟨hkey, hlen, hgood, hct⟩
    exact exec_dec_of_unwritten hkey hlen hgood hct

/-- R166, R167: a block command faults when there is a key and a half of `DIN` is missing. -/
theorem runBlock_fault_iff {c : Instr} (hc : c = .encb ∨ c = .decb) (forward : Bool) :
    runBlock c forward s = .fault .unwrittenRead ↔ s.keyValid = true ∧ (s.dinHi = none ∨ s.dinLo = none) := by
  constructor
  · intro h
    cases hkey : s.keyValid with
    | false => simp [runBlock_of_noKey hc forward hkey] at h
    | true =>
      obtain ⟨sk, hsk⟩ := hs.exists_schedule hkey
      cases hblock : s.blockOperand with
      | none => exact ⟨rfl, blockOperand_eq_none.mp hblock⟩
      | some b => simp [runBlock_of_operands c forward hblock hkey hsk] at h
  · rintro ⟨hkey, hdin⟩
    exact runBlock_of_unwritten c forward hkey hdin

end Faults

/-- A missing byte of the payload makes its length positive. -/
theorem goodLength_and_unwritten_iff (s : State) :
    badCiphertextLength s.inLen.toNat = false ∧ s.payloadOperand = none ↔
      s.inLen.toNat % 8 = 0 ∧ ∃ j, j < s.inLen.toNat ∧ s.inBuf.read j = none := by
  rw [badCiphertextLength_eq_false, payloadOperand_eq_none]
  constructor
  · rintro ⟨⟨-, h8⟩, hnone⟩
    exact ⟨h8, hnone⟩
  · rintro ⟨h8, j, hj, hnone⟩
    exact ⟨⟨Nat.ne_zero_of_lt hj, h8⟩, j, hj, hnone⟩

/-- Settles O19: the fault conditions command by command; that none is refused needs no invariant. -/
theorem commandsFaultOnlyOnUnwritten : Obligations.CommandsFaultOnlyOnUnwritten := by
  unfold Obligations.CommandsFaultOnlyOnUnwritten
  intro s hs
  refine ⟨fun i r => exec_ne_refused i s r, exec_ldkey_fault_iff, exec_enc_fault_iff hs, ?_,
    runBlock_fault_iff hs (.inl rfl) true, runBlock_fault_iff hs (.inr rfl) false⟩
  rw [exec_dec_fault_iff hs, goodLength_and_unwritten_iff]

end Sys2Proof.Machine
end

section
/-!
Steps and host programs (R60 to R63, R80). What an action does to the core does not depend on the actions that are still to come, so taking
them off the program one by one is the same as performing a list of them. The same argument shows that a host read does
not depend on `KEY` and `SK` (R22, R24).
-/

namespace Sys2Proof.Machine

/-! ### Updates that an answer carries along -/

/-- A result with an update made of its next state. -/
def mapNext (f : State → State) : Result → Result
  | .next t => .next (f t)
  | .fault r => .fault r
  | .refused r => .refused r

@[simp] theorem mapNext_next (f : State → State) (t : State) : mapNext f (.next t) = .next (f t) := rfl

@[simp] theorem mapNext_fault (f : State → State) (r : Fault) : mapNext f (.fault r) = .fault r := rfl

@[simp] theorem mapNext_refused (f : State → State) (r : Refusal) : mapNext f (.refused r) = .refused r := rfl

theorem mapNext_congr {f g : State → State} {r : Result} (h : ∀ t, r = .next t → f t = g t) : mapNext f r = mapNext g r := by
  cases r with
  | next t => exact congrArg _ (h t rfl)
  | fault r => rfl
  | refused r => rfl

/-! ### Reads (R22, R24, R56) -/

/-- The state with other contents of the fields that no host read returns. -/
def State.withUnread (s : State) (k : Held Block) (sk : Vector (Held Subkey) 16) (p : List HostAction) : State :=
  { s with key := k, sk := sk, program := p }

section Unread

variable (s : State) (k : Held Block) (sk : Vector (Held Subkey) 16) (p : List HostAction)

theorem returnRead_withUnread (v : Held ReadValue) :
    returnRead v (s.withUnread k sk p) = mapNext (·.withUnread k sk p) (returnRead v s) := by
  cases v with
  | none => rfl
  | some x => rfl

theorem readReg_withUnread (r : Reg) :
    readReg r (s.withUnread k sk p) = mapNext (·.withUnread k sk p) (readReg r s) := by
  cases r with
  | cmd | status | inLen | outLen => rfl
  | dinHi | dinLo | doutHi | doutLo => exact returnRead_withUnread s k sk p _

/-- R22, R24: a host read gives the same answer whatever the unread fields hold. -/
theorem hostRead_withUnread (width off : Nat) :
    hostRead width off (s.withUnread k sk p) = mapNext (·.withUnread k sk p) (hostRead width off s) := by
  have hcap : (s.withUnread k sk p).inCap = s.inCap := rfl
  unfold hostRead
  rw [hcap]
  cases locate s.inCap off with
  | reg r =>
    dsimp only
    split_ifs
    · exact readReg_withUnread s k sk p r
    · rfl
  | inCell i | outCell i =>
    dsimp only
    split_ifs
    · exact returnRead_withUnread s k sk p _
    · rfl
  | misaligned | reserved => rfl

end Unread

/-- Settles O23: `KEY` and `SK` are among the unread fields, and a read keeps the program. -/
theorem keyHasNoReadPath : Obligations.KeyHasNoReadPath := by
  unfold Obligations.KeyHasNoReadPath
  intro s width off k sk
  refine (hostRead_withUnread s k sk s.program width off).trans ?_
  cases h : hostRead width off s with
  | next t =>
    obtain ⟨v, rfl⟩ := hostRead_cases h
    rfl
  | fault r | refused r => rfl

/-! ### The remaining program (R60) -/

section Program

variable (s : State) (p : List HostAction)

@[simp] theorem setProgram_keyOperand : (s.setProgram p).keyOperand = s.keyOperand := rfl

@[simp] theorem setProgram_payloadOperand : (s.setProgram p).payloadOperand = s.payloadOperand := rfl

@[simp] theorem setProgram_blockOperand : (s.setProgram p).blockOperand = s.blockOperand := rfl

@[simp] theorem setProgram_scheduleOperand : (s.setProgram p).scheduleOperand = s.scheduleOperand := rfl

theorem raiseError_setProgram (c : Option Instr) (e : ErrCode) :
    raiseError c e (s.setProgram p) = mapNext (·.setProgram p) (raiseError c e s) := by
  cases c with
  | none => rfl
  | some i => cases i <;> rfl

theorem runBlock_setProgram (c : Instr) (forward : Bool) :
    runBlock c forward (s.setProgram p) = mapNext (·.setProgram p) (runBlock c forward s) := by
  rw [runBlock, runBlock, apply_ite (mapNext _)]
  refine ite_congr rfl (fun _ => raiseError_setProgram s p _ _) fun _ => ?_
  rw [setProgram_blockOperand, setProgram_scheduleOperand]
  cases s.blockOperand <;> cases s.scheduleOperand <;> rfl

theorem execLdkey_setProgram : execLdkey (s.setProgram p) = mapNext (·.setProgram p) (execLdkey s) := by
  rw [execLdkey, execLdkey, apply_ite (mapNext _)]
  refine ite_congr rfl (fun _ => rfl) fun _ => ?_
  rw [setProgram_keyOperand]
  cases s.keyOperand <;> rfl

theorem execEnc_setProgram : execEnc (s.setProgram p) = mapNext (·.setProgram p) (execEnc s) := by
  rw [execEnc, execEnc, apply_ite (mapNext _), apply_ite (mapNext _)]
  refine ite_congr rfl (fun _ => rfl) fun _ => ite_congr rfl (fun _ => rfl) fun _ => ?_
  rw [setProgram_payloadOperand, setProgram_scheduleOperand]
  cases s.payloadOperand <;> cases s.scheduleOperand <;> rfl

theorem execDec_setProgram : execDec (s.setProgram p) = mapNext (·.setProgram p) (execDec s) := by
  rw [execDec, execDec, apply_ite (mapNext _), apply_ite (mapNext _), apply_ite (mapNext _)]
  refine ite_congr rfl (fun _ => rfl) fun _ => ite_congr rfl (fun _ => rfl) fun _ => ite_congr rfl (fun _ => rfl) fun _ => ?_
  rw [setProgram_payloadOperand, setProgram_scheduleOperand]
  cases s.payloadOperand with
  | none => rfl
  | some ct =>
    cases s.scheduleOperand with
    | none => rfl
    | some sk =>
      dsimp only
      cases decryptPayload ct sk <;> rfl

theorem exec_setProgram (i : Instr) : exec i (s.setProgram p) = mapNext (·.setProgram p) (exec i s) := by
  cases i with
  | ldkey => exact execLdkey_setProgram s p
  | enc => exact execEnc_setProgram s p
  | dec => exact execDec_setProgram s p
  | encb => exact runBlock_setProgram s p .encb true
  | decb => exact runBlock_setProgram s p .decb false

theorem issue_setProgram (w : Word) : issue w (s.setProgram p) = mapNext (·.setProgram p) (issue w s) := by
  cases hd : decode w with
  | command i =>
    rw [issue, issue, hd]
    exact exec_setProgram s p i
  | illegal why =>
    rw [issue_of_illegal hd, issue_of_illegal hd]
    rfl

theorem hostWrite_setProgram (width off : Nat) (v : BitVec width) :
    hostWrite width off v (s.setProgram p) = mapNext (·.setProgram p) (hostWrite width off v s) := by
  unfold hostWrite
  rw [setProgram_inCap]
  cases locate s.inCap off with
  | reg r =>
    dsimp only
    split_ifs
    · cases r with
      | cmd => exact issue_setProgram s p _
      | status | inLen | outLen | dinHi | dinLo | doutHi | doutLo => rfl
    · rfl
  | inCell i | outCell i =>
    dsimp only
    split_ifs
    · rfl
    · rfl
  | misaligned | reserved => rfl

theorem hostRead_setProgram (width off : Nat) :
    hostRead width off (s.setProgram p) = mapNext (·.setProgram p) (hostRead width off s) := by
  refine (hostRead_withUnread s s.key s.sk p width off).trans (mapNext_congr fun t h => ?_)
  obtain ⟨v, rfl⟩ := hostRead_cases h
  rfl

/-- R60: what an action does is independent of the actions still to be performed, which it leaves as they are. -/
theorem performAction_setProgram (a : HostAction) :
    performAction a (s.setProgram p) = mapNext (·.setProgram p) (performAction a s) := by
  cases a with
  | write width off v => exact hostWrite_setProgram s p width off v
  | read width off => exact hostRead_setProgram s p width off
  | reset => rfl

end Program

/-- An action leaves the program as it is. -/
theorem program_of_performAction {a : HostAction} {s t : State} (h : performAction a s = .next t) :
    t.program = s.program := by
  have hkeep : performAction a s = mapNext (·.setProgram s.program) (performAction a s) :=
    performAction_setProgram s s.program a
  rw [h, mapNext_next] at hkeep
  have ht : t = t.setProgram s.program := Host.Outcome.next.inj hkeep
  rw [ht, setProgram_program]

theorem program_of_performActions {as : List HostAction} {s t : State} (h : performActions as s = .next t) :
    t.program = s.program := by
  induction as generalizing s with
  | nil => cases h; rfl
  | cons a as ih =>
    cases ha : performAction a s with
    | next u =>
      rw [performActions_cons ha] at h
      rw [ih h, program_of_performAction ha]
    | fault r | refused r => simp [performActions, ha] at h

/-! ### Runs (R61) -/

/-- A step that answers leaves the other steps to be run. -/
theorem run_succ_of_step_next {M : Host.Core} {s t : M.State} (h : M.step s = .next t) (n : Nat) :
    M.run (n + 1) s = M.run n t := by
  rw [Host.Core.run, h]

/-- A step that faults ends the run. -/
theorem run_succ_of_step_fault {M : Host.Core} {s : M.State} {r : M.Fault} (h : M.step s = .fault r) (n : Nat) :
    M.run (n + 1) s = .fault r := by
  rw [Host.Core.run, h]

/-- R60, R61: as many steps as the program has actions perform them one after another. -/
theorem run_setProgram (as : List HostAction) (s : State) :
    Sys2Proof.core.run as.length (s.setProgram as) = performActions as (s.setProgram []) := by
  induction as generalizing s with
  | nil => rfl
  | cons a as ih =>
    have hstep : Sys2Proof.core.step (s.setProgram (a :: as)) = mapNext (·.setProgram as) (performAction a s) :=
      performAction_setProgram s as a
    have hfirst : performAction a (s.setProgram []) = mapNext (·.setProgram []) (performAction a s) :=
      performAction_setProgram s [] a
    cases h : performAction a s with
    | next t =>
      rw [h, mapNext_next] at hstep hfirst
      exact (run_succ_of_step_next hstep as.length).trans ((ih t).trans (performActions_cons hfirst as).symm)
    | fault r =>
      rw [h, mapNext_fault] at hstep hfirst
      rw [performActions, hfirst]
      exact run_succ_of_step_fault hstep as.length
    | refused r =>
      rw [h, mapNext_refused] at hstep hfirst
      rw [performActions, hfirst]
      exact run_succ_of_step_refused hstep as.length

/-- Settles O6: a run that answers has performed every action, so none is left. -/
theorem stepwiseRunIsProgramRun : Obligations.StepwiseRunIsProgramRun := by
  unfold Obligations.StepwiseRunIsProgramRun
  intro s
  have hrun : Sys2Proof.core.run s.program.length s = performActions s.program { s with program := [] } :=
    run_setProgram s.program s
  refine ⟨hrun, fun t => ⟨fun hends => hrun.symm.trans hends.1, fun h => ⟨hrun.trans h, ?_⟩⟩⟩
  exact program_of_performActions h

/-! ### Single steps (R60, R80) -/

/-- Settles O5: both clauses are the two branches of a step. -/
theorem stepPerformsNextAction : Obligations.StepPerformsNextAction := by
  unfold Obligations.StepPerformsNextAction
  refine ⟨fun _ _ _ => step_of_program_cons, fun s h => ?_⟩
  rw [step, h]

/-- R80: a step whose action writes a word to `CMD` issues the word. -/
theorem step_of_program_command {s : State} {w : Word} {rest : List HostAction} (h : s.program = .command w :: rest) :
    step s = issue w { s with program := rest } :=
  (step_of_program_cons h).trans (performAction_command w _)

/-- The word that `withFetchWord` places is issued by the very next step, in the state as it was. -/
theorem step_withFetchWord (s : State) (w : Word) : step (s.withFetchWord 32 w.toNat) = issue w s := by
  have hword : BitVec.ofNat 32 (w.toNat % 2 ^ 32) = w := by
    rw [Nat.mod_eq_of_lt w.isLt, BitVec.ofNat_toNat, BitVec.setWidth_eq]
  have hprogram : (s.withFetchWord 32 w.toNat).program = .command w :: s.program := by
    rw [State.withFetchWord, setProgram_program, hword]
  exact step_of_program_command hprogram

/-- Settles O4: the step issues the word, and issuing is `exec` of the decoded command or the error of an illegal word. -/
theorem stepIssuesDecodedCommand : Obligations.StepIssuesDecodedCommand := by
  unfold Obligations.StepIssuesDecodedCommand
  intro s w rest hprogram
  have hstep := step_of_program_command hprogram
  refine ⟨fun i hd => ⟨?_, ?_⟩, fun why hd => hstep.trans (issue_of_illegal hd _)⟩
  · rw [hstep, issue, hd]
  · rw [step_withFetchWord, issue, hd]

/-- Settles O1: the words of the commands by the encoder, the others by their fields. -/
theorem opcodeMapWordsDecode : Obligations.OpcodeMapWordsDecode := by
  unfold Obligations.OpcodeMapWordsDecode
  exact ⟨decode_encode .ldkey, decode_encode .enc, decode_encode .dec, decode_encode .encb, decode_encode .decb,
    by decide, by decide, by decide, by decide, by decide⟩

/-! ### Reset and `KEY_VALID` (R23, R240) -/

/-- Settles O8: the values `resetCore` writes, and the three fields it keeps. -/
theorem resetActionRestoresReset : Obligations.ResetActionRestoresReset := by
  unfold Obligations.ResetActionRestoresReset
  exact fun s => ⟨s.resetCore, rfl, resetCore_key s, resetCore_keyValid s, resetCore_sk_getElem s,
    resetCore_dinHi s, resetCore_dinLo s, resetCore_doutHi s, resetCore_doutLo s,
    resetCore_inBuf_read s, resetCore_inLen s, resetCore_outBuf_read s, resetCore_outLen s,
    resetCore_statusWord s, resetCore_inCap s, resetCore_program s, resetCore_observed s⟩

/-- R23: no action but reset clears `KEY_VALID`; `LDKEY` sets it or leaves it. -/
theorem keyValid_of_performAction {a : HostAction} {s t : State} (h : performAction a s = .next t) (ha : a ≠ .reset)
    (hkey : s.keyValid = true) : t.keyValid = true := by
  by_cases hcmd : a = .command (encode .ldkey)
  · rw [hcmd, performAction_command, issue, decode_encode] at h
    cases commandEffect_of_exec h with
    | keyLoaded => rfl
    | keyRejected => exact hkey
    | outWritten hi | outInvalidated hi | doutWritten hi | doutInvalidated hi => simp at hi
  · obtain ⟨-, -, hsame⟩ := sameKey_of_performAction h hcmd ha
    rw [hsame, hkey]

/-- Settles O22: the action of a step that clears `KEY_VALID` can only be reset. -/
theorem onlyResetClearsKeyValid : Obligations.OnlyResetClearsKeyValid := by
  unfold Obligations.OnlyResetClearsKeyValid
  intro s t h hset hclear
  rcases step_cases h with ⟨-, rfl⟩ | ⟨a, rest, hprogram, hact⟩
  · simp [hset] at hclear
  · by_cases ha : a = .reset
    · exact ⟨rest, ha ▸ hprogram, program_of_performAction hact⟩
    · simp [keyValid_of_performAction hact ha hset] at hclear

end Sys2Proof.Machine
end

section
/-!
What the host puts in and reads back (R52, R63, R66, R96), and the layout of `STATUS` (R31).
-/

namespace Sys2Proof.Machine

/-! ### Last writes (R63) -/

/-- R53, R55: a write at the offset of `IN[i]` that answers has written that cell. -/
theorem inCell_of_write {s t : State} {i : Nat} {b : Byte} (h : performAction (.write 8 (inBase + i) b) s = .next t) :
    i < s.inCap.val ∧ t = s.writeIn i b := by
  rcases hostWrite_cases h with ⟨-, hw, -⟩ | ⟨-, hw, -⟩ | ⟨-, hw, -⟩ | ⟨-, hw, -⟩ | ⟨j, hloc, -, rfl⟩
  · simp at hw
  · simp at hw
  · simp at hw
  · simp at hw
  · obtain ⟨hoff, hj⟩ := locate_inCell hloc
    obtain rfl : i = j := Nat.add_left_cancel hoff
    rw [BitVec.setWidth_eq]
    exact ⟨hj, rfl⟩

theorem sameInputs_of_issue {w : Word} {s t : State} (h : issue w s = .next t) : SameInputs s t := by
  cases hd : decode w with
  | command i =>
    rw [issue, hd] at h
    exact sameInputs_of_exec h
  | illegal why =>
    rw [issue_of_illegal hd] at h
    cases h
    exact ⟨rfl, rfl, rfl, rfl, rfl, rfl, rfl⟩

/-- No action but reset and a write to `IN[i]` changes `IN[i]`, and none changes `IN_CAP`. -/
theorem inCell_of_performAction {a : HostAction} {s t : State} {i : Nat} (h : performAction a s = .next t)
    (hreset : a ≠ .reset) (hwrite : ∀ b : Byte, a ≠ .write 8 (inBase + i) b) :
    t.inBuf.read i = s.inBuf.read i ∧ t.inCap = s.inCap := by
  cases a with
  | write width off v =>
    rcases hostWrite_cases h with ⟨-, -, hissue⟩ | ⟨-, -, rfl⟩ | ⟨-, -, rfl⟩ | ⟨-, -, rfl⟩ | ⟨j, hloc, rfl, rfl⟩
    · obtain ⟨hinBuf, -, -, -, hinCap, -⟩ := sameInputs_of_issue hissue
      exact ⟨by rw [hinBuf], hinCap⟩
    · exact ⟨rfl, rfl⟩
    · exact ⟨rfl, rfl⟩
    · exact ⟨rfl, rfl⟩
    · obtain ⟨rfl, -⟩ := locate_inCell hloc
      have hij : i ≠ j := by
        rintro rfl
        exact hwrite v rfl
      exact ⟨Memory.read_write_other s.inBuf _ hij, rfl⟩
  | read width off =>
    obtain ⟨v, rfl⟩ := hostRead_cases h
    exact ⟨rfl, rfl⟩
  | reset => exact absurd rfl hreset

theorem inCell_of_performActions {as : List HostAction} {s t : State} {i : Nat} (h : performActions as s = .next t)
    (has : ∀ a ∈ as, a ≠ .reset ∧ ∀ b : Byte, a ≠ .write 8 (inBase + i) b) :
    t.inBuf.read i = s.inBuf.read i ∧ t.inCap = s.inCap := by
  induction as generalizing s with
  | nil => cases h; exact ⟨rfl, rfl⟩
  | cons a as ih =>
    obtain ⟨⟨hreset, hwrite⟩, hrest⟩ := List.forall_mem_cons.mp has
    cases ha : performAction a s with
    | next u =>
      rw [performActions_cons ha] at h
      obtain ⟨hread, hcap⟩ := inCell_of_performAction ha hreset hwrite
      obtain ⟨hread', hcap'⟩ := ih h hrest
      exact ⟨hread'.trans hread, hcap'.trans hcap⟩
    | fault r | refused r => simp [performActions, ha] at h

/-- Settles O30: the actions in between keep the written cell. -/
theorem readReturnsLastWrite : Obligations.ReadReturnsLastWrite := by
  unfold Obligations.ReadReturnsLastWrite
  intro s s₁ s₂ i b between hwrite hbetween hothers
  obtain ⟨hi, rfl⟩ := inCell_of_write hwrite
  obtain ⟨hread, hcap⟩ := inCell_of_performActions hbetween hothers
  have hcell : s₂.inBuf.read i = some b := hread.trans (Memory.read_write_same s.inBuf i b)
  have hi' : i < s₂.inCap.val := by rwa [hcap]
  exact (performAction_read_inCell hi').trans (by rw [hcell]; rfl)

/-! ### Repeated writes (R66) -/

/-- Writing a byte where it stands changes nothing, whatever the form of the buffer. -/
theorem Memory.write_write_same (m : Memory) (i : Nat) (b : Byte) : (m.write i b).write i b = m.write i b := by
  induction m with
  | nil => simp [Memory.write]
  | cons c m ih =>
    rcases Nat.lt_trichotomy i c.1 with hlt | heq | hgt
    · simp [Memory.write, hlt]
    · simp [Memory.write, heq]
    · have hlt : ¬ i < c.1 := Nat.not_lt.mpr (Nat.le_of_lt hgt)
      have hne : i ≠ c.1 := Nat.ne_of_gt hgt
      simp [Memory.write, hlt, hne, ih]

theorem writeIn_writeIn_same (s : State) (i : Nat) (b : Byte) : (s.writeIn i b).writeIn i b = s.writeIn i b := by
  rw [State.writeIn, writeIn_inBuf, Memory.write_write_same]
  rfl

/-- Settles O31: each register write and each buffer write puts the same value in the same place again. -/
theorem dataWritesAreIdempotent : Obligations.DataWritesAreIdempotent := by
  unfold Obligations.DataWritesAreIdempotent
  intro s t width off v hoff h
  rcases hostWrite_cases h with ⟨hloc, -, -⟩ | ⟨hloc, rfl, rfl⟩ | ⟨hloc, rfl, rfl⟩ | ⟨hloc, rfl, rfl⟩ | ⟨i, hloc, rfl, rfl⟩
  · exact absurd (locate_reg.mp hloc) hoff
  · obtain rfl := locate_reg.mp hloc
    rw [BitVec.setWidth_eq]
    exact performAction_write_reg .inLen v _
  · obtain rfl := locate_reg.mp hloc
    rw [BitVec.setWidth_eq]
    exact performAction_write_reg .dinHi v _
  · obtain rfl := locate_reg.mp hloc
    rw [BitVec.setWidth_eq]
    exact performAction_write_reg .dinLo v _
  · obtain ⟨rfl, hi⟩ := locate_inCell hloc
    rw [BitVec.setWidth_eq, performAction_write_inCell (s := s.writeIn i v) v hi, writeIn_writeIn_same]

/-! ### The pseudo-instructions (R96) -/

/-- The cells above the written ones keep their values. -/
theorem Memory.read_writeBytes_above (m : Memory) {i j : Nat} (bs : List Byte) (h : i + bs.length ≤ j) :
    (m.writeBytes i bs).read j = m.read j := by
  induction bs generalizing m i with
  | nil => rfl
  | cons b bs ih =>
    rw [List.length_cons] at h
    rw [Memory.writeBytes, ih _ (by omega), Memory.read_write_other m b (by omega)]

/-- Settles O32: the written bytes read back, and the cells above them are untouched. -/
theorem loadInPlacesBytes : Obligations.LoadInPlacesBytes := by
  unfold Obligations.LoadInPlacesBytes
  intro s bs hfits
  obtain ⟨-, hread⟩ := Memory.readBytes_eq_some.mp (Memory.readBytes_writeBytes s.inBuf 0 bs)
  exact ⟨s.loadInput bs, performActions_loadIn hfits, rfl, loadInput_inLen_toNat hfits,
    fun i hi => (congrArg _ (Nat.zero_add i)).symm.trans (hread i hi),
    fun i hi => Memory.read_writeBytes_above s.inBuf bs (by omega)⟩

/-- R96: `SETBLK`. -/
theorem performActions_setBlk (s : State) (v : Block) : performActions (setBlkActions v) s =
    .next ((s.setDinHi (v.extractLsb' 32 32)).setDinLo (v.extractLsb' 0 32)) := by
  rw [setBlkActions, performActions_cons (performAction_write_reg .dinHi _ s),
    performActions_cons (performAction_write_reg .dinLo _ _)]
  rfl

/-- R52: the bytes of a block are those of its high half and then those of its low half. -/
theorem unblk_append (hi lo : Word) : unblk (hi ++ lo) =
    [hi.extractLsb' 24 8, hi.extractLsb' 16 8, hi.extractLsb' 8 8, hi.extractLsb' 0 8,
      lo.extractLsb' 24 8, lo.extractLsb' 16 8, lo.extractLsb' 8 8, lo.extractLsb' 0 8] := by
  have hhigh : ∀ n, 32 ≤ n → (hi ++ lo).extractLsb' n 8 = hi.extractLsb' (n - 32) 8 := fun _ =>
    BitVec.extractLsb'_append_eq_of_le
  have hlow : ∀ n, n + 8 ≤ 32 → (hi ++ lo).extractLsb' n 8 = lo.extractLsb' n 8 := fun _ =>
    BitVec.extractLsb'_append_eq_of_add_le
  rw [unblk, hhigh 56 (by decide), hhigh 48 (by decide), hhigh 40 (by decide), hhigh 32 (by decide),
    hlow 24 (by decide), hlow 16 (by decide), hlow 8 (by decide), hlow 0 (by decide)]

/-- Settles O33: the two writes put the halves of the block into `DIN`. -/
theorem setBlkPlacesBlock : Obligations.SetBlkPlacesBlock := by
  unfold Obligations.SetBlkPlacesBlock
  intro s v
  refine ⟨_, v.extractLsb' 32 32, v.extractLsb' 0 32, performActions_setBlk s v, rfl,
    extractLsb'_append_extractLsb'_halves v, ?_⟩
  rw [← unblk_append, extractLsb'_append_extractLsb'_halves]

/-! ### The layout of `STATUS` (R31) -/

/-- R210: codes 7 to 15 are never produced. -/
theorem code_le_six (e : ErrCode) : e.code.toNat ≤ 6 := by
  cases e <;> decide

/-- Settles O26: each field is one part of the concatenation. -/
theorem statusLayout : Obligations.StatusLayout := by
  unfold Obligations.StatusLayout
  intro s
  rw [State.statusWord, statusOf]
  refine ⟨BitVec.extractLsb'_append_eq_right, ?_, ?_, code_le_six s.err, ?_⟩
  · rw [BitVec.extractLsb'_append_eq_of_le (by decide)]
    exact BitVec.extractLsb'_append_eq_right
  · rw [BitVec.extractLsb'_append_eq_of_le (by decide), BitVec.extractLsb'_append_eq_of_le (by decide)]
    exact BitVec.extractLsb'_append_eq_right
  · rw [BitVec.extractLsb'_append_eq_of_le (by decide), BitVec.extractLsb'_append_eq_of_le (by decide)]
    exact BitVec.extractLsb'_append_eq_left

end Sys2Proof.Machine
end

section
/-!
Blocks, tables and key halves (R50, R103, R108, R121, R125): the order of bytes and bits in a block, the inverse of `IP`, the sixteen
rotations as one, and the keys whose halves no rotation changes.
-/

namespace Sys2Proof.Machine

/-! ### Bytes and bits of a block (R13, R50) -/

/-- R50: byte `j` of a block. -/
theorem unblk_getElem? (v : Block) {j : Nat} (h : j < 8) : (unblk v)[j]? = some (v.extractLsb' (56 - 8 * j) 8) := by
  match j, h with
  | 0, _ | 1, _ | 2, _ | 3, _ | 4, _ | 5, _ | 6, _ | 7, _ => rfl

/-- R13, R17: position `p` of a block is bit `7 - ((p-1) mod 8)` of its byte `(p-1) div 8`. -/
theorem pos_eq_unblk_getLsbD (v : Block) {p : Nat} (hlo : 1 ≤ p) (hhi : p ≤ 64) :
    some (pos v p) = (unblk v)[(p - 1) / 8]?.map fun b => b.getLsbD (7 - (p - 1) % 8) := by
  have hbit : 7 - (p - 1) % 8 < 8 := by omega
  have hindex : 56 - 8 * ((p - 1) / 8) + (7 - (p - 1) % 8) = 64 - p := by omega
  rw [unblk_getElem? v (by omega), Option.map_some, BitVec.getLsbD_extractLsb', hindex, decide_eq_true hbit, Bool.true_and,
    pos]

/-- Settles O34: the bits of packed bytes are read off their unpacking. -/
theorem blockByteOrder : Obligations.BlockByteOrder := by
  unfold Obligations.BlockByteOrder
  refine ⟨fun v => ⟨blk_unblk v, unblk_length v, fun j => unblk_getElem? v⟩, fun bs hbs => ⟨unblk_blk hbs, fun p hlo hhi => ?_⟩⟩
  have hpos := pos_eq_unblk_getLsbD (blk bs) hlo hhi
  rwa [unblk_blk hbs] at hpos

/-! ### The outer permutations (R108) -/

/-- R108: `FP[IP[j]] = j`. -/
theorem invertsTable_initialPerm_finalPerm : InvertsTable initialPerm finalPerm := by
  unfold InvertsTable
  decide

/-- Settles O35: the tables invert each other entry by entry, hence as permutations. -/
theorem finalPermInvertsInitial : Obligations.FinalPermInvertsInitial := by
  unfold Obligations.FinalPermInvertsInitial
  exact ⟨fun j => (invertsTable_initialPerm_finalPerm j).2,
    fun v => ⟨permute_finalPerm_initialPerm v, permute_initialPerm_finalPerm v⟩⟩

/-! ### Rotations of the key halves (R103, R121) -/

theorem rotateLeft_zero {w : Nat} (x : BitVec w) : x.rotateLeft 0 = x := by
  simp [BitVec.rotateLeft_def, BitVec.ushiftRight_eq_zero]

/-- Two rotations are one by the sum. -/
theorem rotateLeft_rotateLeft {w : Nat} (x : BitVec w) (m n : Nat) : (x.rotateLeft m).rotateLeft n = x.rotateLeft (m + n) := by
  apply BitVec.eq_of_getMsbD_eq
  intro i hi
  have hmod : (n + i) % w < w := Nat.mod_lt _ (by omega)
  have hsum : (m + (n + i) % w) % w = (m + n + i) % w := by rw [Nat.add_mod_mod, Nat.add_assoc]
  simp only [BitVec.getMsbD_rotateLeft, hi, hmod, hsum, decide_true, Bool.true_and]

/-- R121: a sequence of rotation stages is one rotation by the sum of its shifts. -/
theorem foldl_rotateHalves (cd : KeyHalf × KeyHalf) {ss : List Nat} (h : ∀ s ∈ ss, s < 28) :
    ss.foldl rotateHalves cd = (cd.1.rotateLeft ss.sum, cd.2.rotateLeft ss.sum) := by
  induction ss generalizing cd with
  | nil => exact Prod.ext (rotateLeft_zero cd.1).symm (rotateLeft_zero cd.2).symm
  | cons s ss ih =>
    obtain ⟨hs, hss⟩ := List.forall_mem_cons.mp h
    rw [List.foldl_cons, ih _ hss, rotateHalves, rotl28_eq_rotateLeft _ _ hs, rotl28_eq_rotateLeft _ _ hs,
      rotateLeft_rotateLeft, rotateLeft_rotateLeft, List.sum_cons]

/-- R103: the shifts of the sixteen rounds. -/
theorem shifts_lt : ∀ s ∈ shifts.toList, s < 28 := by decide

/-- R103: the shifts add up to the width of a half. -/
theorem shifts_sum : shifts.toList.sum = 28 := by decide

/-- Settles O36: a rotation by the width of a half is none. -/
theorem keyHalvesReturn : Obligations.KeyHalvesReturn := by
  unfold Obligations.KeyHalvesReturn
  intro cd
  have hturn : ∀ x : KeyHalf, x.rotateLeft 28 = x := fun x => by
    rw [← BitVec.rotateLeft_mod_eq_rotateLeft, Nat.mod_self, rotateLeft_zero]
  rw [foldl_rotateHalves cd shifts_lt, shifts_sum, hturn, hturn]

/-! ### Keys with constant halves (R125) -/

/-- A half whose 28 bits are all equal. -/
def ConstantHalf (x : KeyHalf) : Prop := x = 0x0000000 ∨ x = 0xFFFFFFF

/-- R15: no rotation changes a constant half. -/
theorem rotl28_of_constantHalf {x : KeyHalf} (hx : ConstantHalf x) {s : Nat} (hs : s < 28) : rotl28 x s = x := by
  have hzero : rotl28 0x0000000 s = 0x0000000 := by simp [rotl28]
  rcases hx with rfl | rfl
  · exact hzero
  · have hones := rotl28_not hs 0x0000000
    rwa [hzero] at hones

/-- R123: halves that no rotation changes give the same subkey in every round. -/
theorem subkeysFrom_of_fixed {cd : KeyHalf × KeyHalf} {ss : List Nat} (h : ∀ s ∈ ss, rotateHalves cd s = cd) :
    subkeysFrom cd ss = List.replicate ss.length (pc2Stage cd) := by
  induction ss with
  | nil => rfl
  | cons s ss ih =>
    obtain ⟨hs, hss⟩ := List.forall_mem_cons.mp h
    rw [subkeysFrom, hs, ih hss, List.length_cons, List.replicate_succ]

/-- R125: the schedule of a key with constant halves. -/
theorem keySchedule_of_constantHalves {k : Block} (hc : ConstantHalf (pc1Stage k).1) (hd : ConstantHalf (pc1Stage k).2) :
    keySchedule k = Vector.replicate 16 (pc2Stage (pc1Stage k)) := by
  apply Vector.toList_inj.mp
  rw [keySchedule_toList, Vector.toList_replicate]
  exact subkeysFrom_of_fixed fun s hs =>
    Prod.ext (rotl28_of_constantHalf hc (shifts_lt s hs)) (rotl28_of_constantHalf hd (shifts_lt s hs))

/-- R161: with equal subkeys both directions use the same ones in the same order. -/
theorem transform_replicate (b : Block) (k : Subkey) :
    transform b (Vector.replicate 16 k) true = transform b (Vector.replicate 16 k) false := by
  have horder : subkeyOrder (Vector.replicate 16 k) true = subkeyOrder (Vector.replicate 16 k) false := by
    rw [subkeyOrder, subkeyOrder, Vector.toList_replicate]
    exact List.reverse_replicate.symm
  rw [transform, transform, horder]

/-- The subkeys of a key whose halves are known to be constant. -/
theorem keySchedule_getElem_of_pc1Stage {k : Block} {c d : KeyHalf} (hk : pc1Stage k = (c, d)) (hc : ConstantHalf c)
    (hd : ConstantHalf d) (i : Fin 16) : (keySchedule k)[i] = pc2Stage (c, d) := by
  rw [keySchedule_of_constantHalves (by rwa [hk]) (by rwa [hk]), hk, Fin.getElem_fin, Vector.getElem_replicate]

/-- Settles O38: a key with constant halves has one subkey sixteen times, and the examples have such halves. -/
theorem equalSubkeyKeys : Obligations.EqualSubkeyKeys := by
  unfold Obligations.EqualSubkeyKeys
  refine ⟨fun k hc hd => ⟨fun i j => ?_, fun b => ?_⟩, fun i => ⟨?_, ?_, ?_⟩⟩
  · rw [keySchedule_getElem_of_pc1Stage rfl hc hd i, keySchedule_getElem_of_pc1Stage rfl hc hd j]
  · rw [keySchedule_of_constantHalves hc hd]
    exact transform_replicate b _
  · exact (keySchedule_getElem_of_pc1Stage (c := 0x0000000) (d := 0x0000000) (by decide) (.inl rfl) (.inl rfl) i).trans
      (by decide)
  · exact (keySchedule_getElem_of_pc1Stage (c := 0xFFFFFFF) (d := 0xFFFFFFF) (by decide) (.inr rfl) (.inr rfl) i).trans
      (by decide)
  · exact (keySchedule_getElem_of_pc1Stage (c := 0x0000000) (d := 0xFFFFFFF) (by decide) (.inl rfl) (.inr rfl) i).trans
      (by decide)

end Sys2Proof.Machine
end

section
/-!
What padding marks (R180, R182) and what a ciphertext block depends on (R190).
-/

namespace Sys2Proof.Machine

/-- R180: in a sequence of whole blocks, the only count a padding can have is that of the payload before it. -/
theorem eq_padCount {len n : Nat} (hlo : 1 ≤ n) (hhi : n ≤ 8) (h : (len + n) % 8 = 0) : n = padCount len := by
  rw [padCount]
  omega

/-- R182: `UNPAD` accepts exactly the padded payloads. -/
theorem unpad_eq_ok_iff {q p : List Byte} (hq : q.length % 8 = 0) : unpad q = .ok p ↔ q = pad p := by
  constructor
  · intro h
    obtain ⟨n, hlo, hhi, rfl⟩ := eq_append_of_unpad h
    rw [List.length_append, List.length_replicate] at hq
    rw [pad, ← eq_padCount hlo hhi hq]
  · rintro rfl
    exact unpad_pad p

/-- R182: everything else is `MalformedPadding`. -/
theorem unpad_eq_error_iff {q : List Byte} (hq : q.length % 8 = 0) (e : ErrCode) :
    unpad q = .error e ↔ e = .malformedPadding ∧ ∀ p, q ≠ pad p := by
  constructor
  · intro h
    refine ⟨eq_malformedPadding_of_unpad h, ?_⟩
    rintro p rfl
    simp [unpad_pad] at h
  · rintro ⟨rfl, hnot⟩
    cases h : unpad q with
    | ok p => exact absurd ((unpad_eq_ok_iff hq).mp h) (hnot p)
    | error e => rw [eq_malformedPadding_of_unpad h]

/-- Settles O43: both answers of `UNPAD`, characterised by whether the sequence is a padding. -/
theorem unpadAcceptsExactlyPadded : Obligations.UnpadAcceptsExactlyPadded := by
  unfold Obligations.UnpadAcceptsExactlyPadded
  exact fun _ _ hq => ⟨fun _ => unpad_eq_ok_iff hq, fun e => unpad_eq_error_iff hq e⟩

/-- R190: block `j` of a ciphertext is the transform of block `j` of the padded payload. -/
theorem encryptPayload_block (p : List Byte) (sk : Schedule) {j : Nat} (hj : j < (pad p).length / 8) :
    ((encryptPayload p sk).drop (8 * j)).take 8 = unblk (transform (blk (((pad p).drop (8 * j)).take 8)) sk true) := by
  have hblock := splitBlocks_getElem? (pad_length_mod p) hj
  obtain ⟨hlt, hget⟩ := List.getElem?_eq_some_iff.mp hblock
  rw [encryptPayload, transformBlocks, take_drop_joinBlocks _ j (by rwa [List.length_map]), List.getElem_map, hget]

/-- Settles O46: a ciphertext block is a function of its own block and the schedule. -/
theorem blocksAreIndependent : Obligations.BlocksAreIndependent := by
  unfold Obligations.BlocksAreIndependent
  refine fun p sk j hj => ⟨encryptPayload_block p sk hj, fun p' j' hj' heq => ?_⟩
  rw [encryptPayload_block p sk hj, encryptPayload_block p' sk hj', heq]

end Sys2Proof.Machine
end
